-- ==== Sys2Proof/Word.lean ====
section
/-! DEFINITION. The word types of the block and the level of a pin. -/

namespace Sys2Proof

/-- A byte: a frame-buffer cell, a stream byte, a wire byte, RESULT. -/
abbrev Byte := BitVec 8

/-- A 16-bit descriptor field (A or B of 30_encoding.md R71). -/
abbrev Half := BitVec 16

/-- A host descriptor (30_encoding.md R71). -/
abbrev Desc := BitVec 64

/-- The physical level of a pin: `true` is level 1, `false` is level 0 (10_state.md R34). -/
abbrev Level := Bool

end Sys2Proof
end

