-- ==== Sys2Proof/Config.lean ====
section
/-! DEFINITION. The implementation parameters of 00_scope.md R9, and the free values. -/

namespace Sys2Proof

/-- The geometry constants of 00_scope.md R6. -/
def PAGES : Nat := 16
def COLS : Nat := 248
def ROWS : Nat := 128
def PANEL_HEIGHT : Nat := 128
def FB_BYTES : Nat := 3968

/-- DATA_FRAMING (00_scope.md R9, 41_serial_bus.md R132). -/
inductive DataFraming where
  | perPayload
  | perByte
  deriving DecidableEq, Repr

/-- Every row of the parameter table of 00_scope.md R9. A block has one value of this type, no
operation changes it (10_state.md R40), and it is an argument of the model: State carries it, so that a
statement about every state is a statement about every value of every parameter (log entry 1). -/
structure Params where
  /-- T_SETTLE_MS -/
  tSettleMs : Nat
  /-- T_RST_PRE_MS -/
  tRstPreMs : Nat
  /-- T_RST_ACTIVE_MS -/
  tRstActiveMs : Nat
  /-- T_RST_POST_MS -/
  tRstPostMs : Nat
  /-- CS_ACTIVE_LEVEL -/
  csActiveLevel : Level
  /-- DC_CMD_LEVEL; the data level is its complement -/
  dcCmdLevel : Level
  /-- RES_ACTIVE_LEVEL -/
  resActiveLevel : Level
  /-- BUSY_ACTIVE_LEVEL -/
  busyActiveLevel : Level
  /-- DRV_OUT -/
  drvOut : Vector Byte 3
  /-- DATA_ENTRY -/
  dataEntry : Vector Byte 1
  /-- WIN_X -/
  winX : Vector Byte 2
  /-- WIN_Y -/
  winY : Vector Byte 4
  /-- BORDER -/
  border : Vector Byte 1
  /-- VCOM -/
  vcom : Vector Byte 1
  /-- GATE_V -/
  gateV : Vector Byte 1
  /-- SOURCE_V -/
  sourceV : Vector Byte 3
  /-- UPD_MODE -/
  updMode : Byte
  /-- INIT_FILL -/
  initFill : Byte
  /-- INIT_FILL_COUNT -/
  initFillCount : Nat
  /-- UPDATE_SET_COUNTERS -/
  updateSetCounters : Bool
  /-- CNT_X -/
  cntX : Vector Byte 1
  /-- CNT_Y -/
  cntY : Vector Byte 2
  /-- DATA_FRAMING -/
  dataFraming : DataFraming
  /-- HAS_BOUNDED_WAIT -/
  hasBoundedWait : Bool
  /-- HOST_PORT_MAP, a number that names the integrator's bus mapping; no rule reads it (log entry 19) -/
  hostPortMap : Nat
  deriving DecidableEq, Repr

/-! The OPEN rows of 00_scope.md R9: no source gives a value, so each is a constant with no body and nothing
proved of State.reset can rest on one (log entry 2). -/

opaque Config.tRstPreMs : Nat
opaque Config.tRstActiveMs : Nat
opaque Config.tRstPostMs : Nat
opaque Config.csActiveLevel : Level
opaque Config.dcCmdLevel : Level
opaque Config.resActiveLevel : Level
opaque Config.busyActiveLevel : Level
opaque Config.drvOut : Nat → Byte
opaque Config.dataEntry : Nat → Byte
opaque Config.winX : Nat → Byte
opaque Config.winY : Nat → Byte
opaque Config.border : Nat → Byte
opaque Config.vcom : Nat → Byte
opaque Config.gateV : Nat → Byte
opaque Config.sourceV : Nat → Byte
opaque Config.updMode : Byte
opaque Config.cntX : Nat → Byte
opaque Config.cntY : Nat → Byte
opaque Config.hostPortMap : Nat

/-- The parameters of the block that State.reset describes: the value 00_scope.md R9 gives where it gives one, a
free constant for each OPEN row. -/
def Config.params : Params where
  tSettleMs := 10
  tRstPreMs := Config.tRstPreMs
  tRstActiveMs := Config.tRstActiveMs
  tRstPostMs := Config.tRstPostMs
  csActiveLevel := Config.csActiveLevel
  dcCmdLevel := Config.dcCmdLevel
  resActiveLevel := Config.resActiveLevel
  busyActiveLevel := Config.busyActiveLevel
  drvOut := #v[Config.drvOut 0, Config.drvOut 1, Config.drvOut 2]
  dataEntry := #v[Config.dataEntry 0]
  winX := #v[Config.winX 0, Config.winX 1]
  winY := #v[Config.winY 0, Config.winY 1, Config.winY 2, Config.winY 3]
  border := #v[Config.border 0]
  vcom := #v[Config.vcom 0]
  gateV := #v[Config.gateV 0]
  sourceV := #v[Config.sourceV 0, Config.sourceV 1, Config.sourceV 2]
  updMode := Config.updMode
  initFill := 0xFF#8
  initFillCount := 3968
  updateSetCounters := false
  cntX := #v[Config.cntX 0]
  cntY := #v[Config.cntY 0, Config.cntY 1]
  dataFraming := .perPayload
  hasBoundedWait := true
  hostPortMap := Config.hostPortMap

/-- FREE VALUE. The byte that reset number `n` leaves in frame-buffer cell `a`: "a draw, one free byte per
cell, under no law" (10_state.md R24, 93 U3; log entry 6). -/
opaque Config.fbDraw : Nat → Nat → Byte

/-- FREE VALUE. The level of the BUSY pin at sample number `n`, where the panel's list of levels does not
reach: "a draw, under no law" (00_scope.md R7, 93 U2; log entry 5). -/
opaque Config.busyLevel : Nat → Level

end Sys2Proof
end

