-- ==== Sys2Proof/Syntax.lean ====
section
/-! DEFINITION. The instruction set: one constructor per row of spec/opcode_table.json. -/

namespace Sys2Proof

/-- The two sets of operations of 00_scope.md R2.

The first twelve are the host operations of 30_encoding.md R72: a constructor holds the descriptor's operand fields
(R73) and, last, the operand stream issued with the descriptor (R70, R75). Every operation carries a stream,
because a host may issue any descriptor with any stream and the block rejects a wrong length (R77 step 4).

The other seventeen are the wire commands of 43_wire_commands.md: a constructor holds the payload bytes that
follow the command byte (30_encoding.md R80). Any payload length can be sent (R82); WellFormed.lean states the
lengths of the table. -/
inductive Instr where
  /-- CLEAR, R100 -/
  | clear (stream : List Byte)
  /-- CLEARAREA x, y, w, h, R101 -/
  | clearArea (x y : Half) (w h : Byte) (stream : List Byte)
  /-- REVERSE, R102 -/
  | reverse (stream : List Byte)
  /-- REVERSEAREA x, y, w, h, R103 -/
  | reverseArea (x y : Half) (w h : Byte) (stream : List Byte)
  /-- PLOTIMAGE x, y, w, h and the bitmap as the stream, R104 -/
  | plotImage (x y : Half) (w h : Byte) (stream : List Byte)
  /-- WRCMD byte, R133 -/
  | wrCmd (byte : Byte) (stream : List Byte)
  /-- WRDATA N and N stream bytes, R134 -/
  | wrData (n : Half) (stream : List Byte)
  /-- WAITBUSY, R135 -/
  | waitBusy (stream : List Byte)
  /-- INIT, R162 -/
  | init (stream : List Byte)
  /-- UPDATE, R166 -/
  | update (stream : List Byte)
  /-- READFB column, page, R108 -/
  | readFb (col pg : Half) (stream : List Byte)
  /-- WAITBUSYB limit, R136 -/
  | waitBusyB (limit : Half) (stream : List Byte)
  /-- 0x12, R190 -/
  | swReset (payload : List Byte)
  /-- 0x01, R191 -/
  | drvOut (payload : List Byte)
  /-- 0x11, R192 -/
  | dataEntry (payload : List Byte)
  /-- 0x44, R193 -/
  | ramXWindow (payload : List Byte)
  /-- 0x45, R194 -/
  | ramYWindow (payload : List Byte)
  /-- 0x3C, R195 -/
  | borderWaveform (payload : List Byte)
  /-- 0x2C, R196 -/
  | vcom (payload : List Byte)
  /-- 0x03, R197 -/
  | gateVoltage (payload : List Byte)
  /-- 0x04, R198 -/
  | sourceVoltage (payload : List Byte)
  /-- 0x32, R199 -/
  | lutWrite (payload : List Byte)
  /-- 0x24, R200 -/
  | writeRamBw (payload : List Byte)
  /-- 0x22, R201 -/
  | updateControl (payload : List Byte)
  /-- 0x20, R202 -/
  | activateUpdate (payload : List Byte)
  /-- 0x4E, R203 -/
  | ramXCounter (payload : List Byte)
  /-- 0x4F, R204 -/
  | ramYCounter (payload : List Byte)
  /-- 0x0F, R205 -/
  | cursorColStart (payload : List Byte)
  /-- 0x01 in its alternative use, R206: on the wire it differs from `drvOut` only in payload length -/
  | cursorLengthAlt01 (payload : List Byte)
  deriving DecidableEq, Repr

end Sys2Proof
end

