-- ==== Sys2Proof/Machine/Operands.lean ====
section
/-! DEFINITION. Operand forms: the fields of a descriptor, their extension, the stream lengths, the argument checks of
decode, and the payload lengths of the wire table. -/

namespace Sys2Proof.Machine

/-- A signed 16-bit operand (x, y, col, pg), 30_encoding.md R74. -/
def sext16 (v : Half) : Int := v.toInt

/-- An unsigned operand (w, h, N, limit), 30_encoding.md R74. -/
def zext {n : Nat} (v : BitVec n) : Nat := v.toNat

/-- S, the strip count of a bitmap of `h` rows: `(h + 7) fdiv 8` (40_framebuffer.md R104). -/
def stripCount (h : Nat) : Nat := (h + 7) / 8

/-- L(op), the stream length an operation needs (30_encoding.md R75); 0 for the wire commands, which take no
operand stream. -/
def streamLength : Instr → Nat
  | .plotImage _ _ w h _ => stripCount (zext h) * zext w
  | .wrData n _ => zext n
  | .clear _ | .clearArea _ _ _ _ _ | .reverse _ | .reverseArea _ _ _ _ _ | .wrCmd _ _ | .waitBusy _ | .init _
  | .update _ | .readFb _ _ _ | .waitBusyB _ _ => 0
  | .swReset _ | .drvOut _ | .dataEntry _ | .ramXWindow _ | .ramYWindow _ | .borderWaveform _ | .vcom _
  | .gateVoltage _ | .sourceVoltage _ | .lutWrite _ | .writeRamBw _ | .updateControl _ | .activateUpdate _
  | .ramXCounter _ | .ramYCounter _ | .cursorColStart _ | .cursorLengthAlt01 _ => 0

/-- The operand stream issued with a host operation; none for a wire command. -/
def operandStream : Instr → List Byte
  | .clear st | .clearArea _ _ _ _ st | .reverse st | .reverseArea _ _ _ _ st | .plotImage _ _ _ _ st | .wrCmd _ st
  | .wrData _ st | .waitBusy st | .init st | .update st | .readFb _ _ st | .waitBusyB _ st => st
  | .swReset _ | .drvOut _ | .dataEntry _ | .ramXWindow _ | .ramYWindow _ | .borderWaveform _ | .vcom _
  | .gateVoltage _ | .sourceVoltage _ | .lutWrite _ | .writeRamBw _ | .updateControl _ | .activateUpdate _
  | .ramXCounter _ | .ramYCounter _ | .cursorColStart _ | .cursorLengthAlt01 _ => []

/-- Decode step 3 of 30_encoding.md R77: WRDATA's N and WAITBUSYB's limit are not 0. -/
def countOk : Instr → Bool
  | .wrData n _ => zext n != 0
  | .waitBusyB limit _ => zext limit != 0
  | .clear _ | .clearArea _ _ _ _ _ | .reverse _ | .reverseArea _ _ _ _ _ | .plotImage _ _ _ _ _ | .wrCmd _ _
  | .waitBusy _ | .init _ | .update _ | .readFb _ _ _ => true
  | .swReset _ | .drvOut _ | .dataEntry _ | .ramXWindow _ | .ramYWindow _ | .borderWaveform _ | .vcom _
  | .gateVoltage _ | .sourceVoltage _ | .lutWrite _ | .writeRamBw _ | .updateControl _ | .activateUpdate _
  | .ramXCounter _ | .ramYCounter _ | .cursorColStart _ | .cursorLengthAlt01 _ => true

/-- Decode steps 3 and 4 of 30_encoding.md R77; both name EARG. -/
def argsOk (i : Instr) : Bool := countOk i && (operandStream i).length == streamLength i

/-- The payload length the wire table gives a command byte (30_encoding.md R80, R81), `none` where the table gives
"N bytes" or does not list the byte; 0x01 is driver output control here (90_conflicts.md C2). -/
def payloadLength (op : Byte) : Option Nat :=
  match op.toNat with
  | 0x12 => some 0
  | 0x01 => some 3
  | 0x11 => some 1
  | 0x44 => some 2
  | 0x45 => some 4
  | 0x3C => some 1
  | 0x2C => some 1
  | 0x03 => some 1
  | 0x04 => some 3
  | 0x32 => some 224
  | 0x22 => some 1
  | 0x20 => some 0
  | 0x4E => some 1
  | 0x4F => some 2
  | 0x0F => some 1
  | _ => none

end Sys2Proof.Machine
end

