-- ==== Sys2Proof/WellFormed.lean ====
section
/-! DEFINITION. Well-formed instructions: a host operation that passes the argument checks of decode, a wire command
with the payload length of the table. -/

namespace Sys2Proof

/-- A host operation is well formed when steps 3 and 4 of decode pass (30_encoding.md R77: a non-zero count, a stream
of exactly L bytes). A wire command is well formed when its payload has the length of 30_encoding.md R80, R81; 0x24 takes
any number of bytes. The block sends an ill-formed wire command as issued (R82) and answers an ill-formed host operation with
EARG, so exec has a meaning for both. -/
def Instr.wf : Instr → Bool
  | .clear st => Machine.argsOk (.clear st)
  | .clearArea x y w h st => Machine.argsOk (.clearArea x y w h st)
  | .reverse st => Machine.argsOk (.reverse st)
  | .reverseArea x y w h st => Machine.argsOk (.reverseArea x y w h st)
  | .plotImage x y w h st => Machine.argsOk (.plotImage x y w h st)
  | .wrCmd b st => Machine.argsOk (.wrCmd b st)
  | .wrData n st => Machine.argsOk (.wrData n st)
  | .waitBusy st => Machine.argsOk (.waitBusy st)
  | .init st => Machine.argsOk (.init st)
  | .update st => Machine.argsOk (.update st)
  | .readFb c p st => Machine.argsOk (.readFb c p st)
  | .waitBusyB l st => Machine.argsOk (.waitBusyB l st)
  | .swReset p => p.length == 0
  | .drvOut p => p.length == 3
  | .dataEntry p => p.length == 1
  | .ramXWindow p => p.length == 2
  | .ramYWindow p => p.length == 4
  | .borderWaveform p => p.length == 1
  | .vcom p => p.length == 1
  | .gateVoltage p => p.length == 1
  | .sourceVoltage p => p.length == 3
  | .lutWrite p => p.length == 224
  | .writeRamBw _ => true
  | .updateControl p => p.length == 1
  | .activateUpdate p => p.length == 0
  | .ramXCounter p => p.length == 1
  | .ramYCounter p => p.length == 2
  | .cursorColStart p => p.length == 1
  | .cursorLengthAlt01 p => p.length == 1

end Sys2Proof
end

