-- ==== Sys2Proof/Decode.lean ====
section
/-! DEFINITION. The decoder of host descriptors and of wire commands, total and rejecting by name, and the encoder. -/

namespace Sys2Proof

/-- What an instruction looks like where it comes from: a descriptor with its operand stream at the host port
(30_encoding.md R70), or a command byte with its payload on the wire (R80). -/
inductive Image where
  | host (desc : Desc) (stream : List Byte)
  | wire (op : Byte) (payload : List Byte)
  deriving DecidableEq, Repr

/-- Why the decoder gives no instruction. -/
inductive DecodeError where
  /-- decode step 1 (30_encoding.md R77): OP 0x0, 0xD, 0xE or 0xF, or 0xC without HAS_BOUNDED_WAIT; EILLOP -/
  | reservedOp
  /-- decode step 2: a zero bit of the format is set; EILLOP -/
  | reservedBits
  /-- a byte the wire table does not list (R82); the block sends such a byte unchecked, so no error comes of it -/
  | unlistedWireByte
  deriving DecidableEq, Repr

/-- The twelve host operations by name (30_encoding.md R72). -/
inductive HostOp where
  | clear | clearArea | reverse | reverseArea | plotImage | wrCmd | wrData | waitBusy | init | update | readFb | waitBusyB
  deriving DecidableEq, Repr

/-- The six formats of 30_encoding.md R73. -/
inductive Format where
  | f0 | fA | fC | fN | fR | fL
  deriving DecidableEq, Repr

/-- The OP value of an operation (30_encoding.md R72). -/
def hostCode : HostOp → BitVec 4
  | .clear => 0x1#4
  | .clearArea => 0x2#4
  | .reverse => 0x3#4
  | .reverseArea => 0x4#4
  | .plotImage => 0x5#4
  | .wrCmd => 0x6#4
  | .wrData => 0x7#4
  | .waitBusy => 0x8#4
  | .init => 0x9#4
  | .update => 0xA#4
  | .readFb => 0xB#4
  | .waitBusyB => 0xC#4

/-- The format of an operation (30_encoding.md R72). -/
def hostFormat : HostOp → Format
  | .clear | .reverse | .waitBusy | .init | .update => .f0
  | .clearArea | .reverseArea | .plotImage => .fA
  | .wrCmd => .fC
  | .wrData => .fN
  | .readFb => .fR
  | .waitBusyB => .fL

/-- The mask column of 30_encoding.md R73. -/
def formatMask : Format → Desc
  | .f0 => 0xFFFFFFFFFFFFFFFF#64
  | .fA => 0xFF000000000000FF#64
  | .fC => 0xFFFFFFFFFFFF00FF#64
  | .fN => 0xFFFFFFFFFF0000FF#64
  | .fR => 0xFFFFFF00000000FF#64
  | .fL => 0xFFFFFFFFFF0000FF#64

/-- Z of decode step 2: `mask(format) & ~0xF` (30_encoding.md R77). -/
def zeroBits (f : Format) : Desc := formatMask f &&& ~~~0xF#64

/-- OP, bits [3:0] (30_encoding.md R71). -/
def fieldOp (d : Desc) : BitVec 4 := d.extractLsb' 0 4
/-- A, bits [23:8]. -/
def fieldA (d : Desc) : Half := d.extractLsb' 8 16
/-- B, bits [39:24]. -/
def fieldB (d : Desc) : Half := d.extractLsb' 24 16
/-- W, bits [47:40]. -/
def fieldW (d : Desc) : Byte := d.extractLsb' 40 8
/-- H, bits [55:48]. -/
def fieldH (d : Desc) : Byte := d.extractLsb' 48 8
/-- The byte operand of format FC, bits [15:8] (30_encoding.md R73). -/
def fieldByte (d : Desc) : Byte := d.extractLsb' 8 8

/-- Decode step 1 (30_encoding.md R77): the operation an OP value selects, none where it is reserved (R76). -/
def hostOpOf (hasBoundedWait : Bool) (op : BitVec 4) : Option HostOp :=
  match op.toNat with
  | 0x1 => some .clear
  | 0x2 => some .clearArea
  | 0x3 => some .reverse
  | 0x4 => some .reverseArea
  | 0x5 => some .plotImage
  | 0x6 => some .wrCmd
  | 0x7 => some .wrData
  | 0x8 => some .waitBusy
  | 0x9 => some .init
  | 0xA => some .update
  | 0xB => some .readFb
  | 0xC => if hasBoundedWait then some .waitBusyB else none
  | _ => none

/-- The instruction of an operation with its operand fields (30_encoding.md R73, R74). -/
def assembleHost (op : HostOp) (d : Desc) (st : List Byte) : Instr :=
  match op with
  | .clear => .clear st
  | .clearArea => .clearArea (fieldA d) (fieldB d) (fieldW d) (fieldH d) st
  | .reverse => .reverse st
  | .reverseArea => .reverseArea (fieldA d) (fieldB d) (fieldW d) (fieldH d) st
  | .plotImage => .plotImage (fieldA d) (fieldB d) (fieldW d) (fieldH d) st
  | .wrCmd => .wrCmd (fieldByte d) st
  | .wrData => .wrData (fieldA d) st
  | .waitBusy => .waitBusy st
  | .init => .init st
  | .update => .update st
  | .readFb => .readFb (fieldA d) (fieldB d) st
  | .waitBusyB => .waitBusyB (fieldA d) st

/-- Decode steps 1 and 2 (30_encoding.md R77). Steps 3 to 5 look at operands, the stream and PSTATE, not at the encoding;
they are the first thing each operation's meaning does (log entry 11). -/
def decodeHost (hasBoundedWait : Bool) (d : Desc) (st : List Byte) : Except DecodeError Instr :=
  match hostOpOf hasBoundedWait (fieldOp d) with
  | none => .error .reservedOp
  | some op => if d &&& zeroBits (hostFormat op) = 0#64 then .ok (assembleHost op d st) else .error .reservedBits

/-- The wire command of a command byte and the payload that follows it (30_encoding.md R80). The byte 0x01 has two rows;
on the wire they differ only in payload length (43_wire_commands.md R206), so a one-byte payload is the alternative use and any
other payload is driver output control (log entry 9). -/
def decodeWire (op : Byte) (p : List Byte) : Except DecodeError Instr :=
  match op.toNat with
  | 0x12 => .ok (.swReset p)
  | 0x01 => if p.length = 1 then .ok (.cursorLengthAlt01 p) else .ok (.drvOut p)
  | 0x11 => .ok (.dataEntry p)
  | 0x44 => .ok (.ramXWindow p)
  | 0x45 => .ok (.ramYWindow p)
  | 0x3C => .ok (.borderWaveform p)
  | 0x2C => .ok (.vcom p)
  | 0x03 => .ok (.gateVoltage p)
  | 0x04 => .ok (.sourceVoltage p)
  | 0x32 => .ok (.lutWrite p)
  | 0x24 => .ok (.writeRamBw p)
  | 0x22 => .ok (.updateControl p)
  | 0x20 => .ok (.activateUpdate p)
  | 0x4E => .ok (.ramXCounter p)
  | 0x4F => .ok (.ramYCounter p)
  | 0x0F => .ok (.cursorColStart p)
  | _ => .error .unlistedWireByte

/-- The decoder, over both places an instruction comes from. -/
def decode (hasBoundedWait : Bool) : Image → Except DecodeError Instr
  | .host d st => decodeHost hasBoundedWait d st
  | .wire op p => decodeWire op p

/-- A descriptor from its fields, the reserved fields RSV0 and RSV1 at 0 (30_encoding.md R71). -/
def mkDesc (op : HostOp) (a b : Half) (w h : Byte) : Desc := 0#8 ++ h ++ w ++ b ++ a ++ 0#4 ++ hostCode op

/-- The encoder: the inverse of `decode` on well-formed instructions (30_encoding.md R71 to R74, R80). -/
def encode : Instr → Image
  | .clear st => .host (mkDesc .clear 0 0 0 0) st
  | .clearArea x y w h st => .host (mkDesc .clearArea x y w h) st
  | .reverse st => .host (mkDesc .reverse 0 0 0 0) st
  | .reverseArea x y w h st => .host (mkDesc .reverseArea x y w h) st
  | .plotImage x y w h st => .host (mkDesc .plotImage x y w h) st
  | .wrCmd byte st => .host (mkDesc .wrCmd (byte.setWidth 16) 0 0 0) st
  | .wrData n st => .host (mkDesc .wrData n 0 0 0) st
  | .waitBusy st => .host (mkDesc .waitBusy 0 0 0 0) st
  | .init st => .host (mkDesc .init 0 0 0 0) st
  | .update st => .host (mkDesc .update 0 0 0 0) st
  | .readFb col pg st => .host (mkDesc .readFb col pg 0 0) st
  | .waitBusyB limit st => .host (mkDesc .waitBusyB limit 0 0 0) st
  | .swReset p => .wire 0x12#8 p
  | .drvOut p => .wire 0x01#8 p
  | .dataEntry p => .wire 0x11#8 p
  | .ramXWindow p => .wire 0x44#8 p
  | .ramYWindow p => .wire 0x45#8 p
  | .borderWaveform p => .wire 0x3C#8 p
  | .vcom p => .wire 0x2C#8 p
  | .gateVoltage p => .wire 0x03#8 p
  | .sourceVoltage p => .wire 0x04#8 p
  | .lutWrite p => .wire 0x32#8 p
  | .writeRamBw p => .wire 0x24#8 p
  | .updateControl p => .wire 0x22#8 p
  | .activateUpdate p => .wire 0x20#8 p
  | .ramXCounter p => .wire 0x4E#8 p
  | .ramYCounter p => .wire 0x4F#8 p
  | .cursorColStart p => .wire 0x0F#8 p
  | .cursorLengthAlt01 p => .wire 0x01#8 p

/-- Whether the wire table lists a command byte (30_encoding.md R80). -/
def listedWireByte (op : Byte) : Bool :=
  match decodeWire op [] with
  | .ok _ => true
  | .error _ => false

/-- The image of an opcode-table word (log entry 10). An 8-bit word that the wire table lists is that command byte with
a payload of zeros of the table's length; every other word is a descriptor whose bits above `nbits` are 0, with an operand stream of
zeros of the length the operation needs (30_encoding.md R75). -/
def tableImage (nbits w : Nat) : Image :=
  if nbits ≤ 8 && listedWireByte (BitVec.ofNat 8 w) then
    .wire (BitVec.ofNat 8 w) (List.replicate ((Machine.payloadLength (BitVec.ofNat 8 w)).getD 0) 0#8)
  else
    match decodeHost true (BitVec.ofNat 64 w) [] with
    | .ok i => .host (BitVec.ofNat 64 w) (List.replicate (Machine.streamLength i) 0#8)
    | .error _ => .host (BitVec.ofNat 64 w) []

/-- The instruction the decoder reads from an opcode-table word, for a block with the default HAS_BOUNDED_WAIT = true
(00_scope.md R9). -/
def decodeTableWord (nbits w : Nat) : Option Instr :=
  match decode true (tableImage nbits w) with
  | .ok i => some i
  | .error _ => none

end Sys2Proof
end

