-- ==== Sys2Proof/Machine/State.lean ====
section
/-! DEFINITION. The state of the block, the reasons a step could stop, and the state after reset. -/

namespace Sys2Proof.Machine

/-- The five outputs (10_state.md R33). -/
inductive Pin where
  | sclk | sda | dc | cs | res
  deriving DecidableEq, Repr

/-- The level each output was last driven to (10_state.md R33: each "holds the last level driven until it is
driven again"). -/
structure Pins where
  sclk : Level
  sda : Level
  dc : Level
  cs : Level
  res : Level
  deriving DecidableEq, Repr

/-- The kind of a CS frame (30_encoding.md R78). -/
inductive Kind where
  | cmd
  | data
  deriving DecidableEq, Repr

/-- PSTATE (10_state.md R25). The reserved code 7 is never held, so it has no constructor (93 U20, log entry 26). -/
inductive PState where
  | uninit
  | softReset
  | configuring
  | idle
  | transmitting
  | refreshing
  | busyWait
  deriving DecidableEq, Repr

/-- STATUS.ERR (10_state.md R28). The reserved codes 5 to 7 are never written (93 U21, log entry 26). -/
inductive Err where
  | ok
  | eillop
  | earg
  | eseq
  | etimeout
  deriving DecidableEq, Repr

/-- An event of the transcript (00_scope.md R8). -/
inductive Event where
  | drive (pin : Pin) (level : Level)
  | delay (ms : Nat)
  | sample (busy : Bool)
  deriving DecidableEq, Repr

/-- The frame-buffer part of a compositing operation, with its operands (40_framebuffer.md R100 to R108). -/
inductive FbOp where
  | clear
  | clearArea (x y : Int) (w h : Nat)
  | reverse
  | reverseArea (x y : Int) (w h : Nat)
  | plot (x y : Int) (w h : Nat) (bitmap : List Byte)
  | read (col pg : Int)
  deriving DecidableEq, Repr

/-- A micro-operation: what is left of a running operation is a list of these. Such a list is the hidden
sequencer position of 10_state.md R21 and the hidden framer state of R37: while a byte is being sent the list begins with the
drives of the bits still to be shifted, and after them the bytes of the burst still to come. -/
inductive SeqOp where
  /-- Drive(pin, level) -/
  | drive (pin : Pin) (level : Level)
  /-- Delay(ms) -/
  | delay (ms : Nat)
  /-- PSTATE <- p -/
  | setPState (p : PState)
  /-- the poll loop of WaitBusy (41_serial_bus.md R135): sample until not busy -/
  | poll
  /-- the poll loop of WAITBUSYB (R136) with `left` samples left -/
  | pollBounded (left : Nat)
  /-- a wire command about to be sent, with its payload (43_wire_commands.md) -/
  | wire (op : Byte) (payload : List Byte)
  /-- the frame-buffer part of an operation -/
  | fb (op : FbOp)
  /-- Finish(code) (00_scope.md R13) -/
  | finish (code : Err)
  /-- PSTATE <- IDLE; Finish(OK), the last two lines of INIT and UPDATE, in one (log entry 8) -/
  | finishIdle
  deriving DecidableEq, Repr

/-- What arrives from outside the block: the three transactions of the host port (30_encoding.md R70) and the block
reset input (70_reset_and_hazards.md R240). -/
inductive Input where
  | issue (desc : Desc) (stream : List Byte)
  | readStatus
  | readResult
  | blockReset
  deriving DecidableEq, Repr

/-- An input and when it lands: `gap` micro-operations of the running operation pass before it; when nothing
runs it lands at once (log entry 4). -/
structure Arrival where
  gap : Nat
  input : Input
  deriving DecidableEq, Repr

/-- What a read transaction returned to the host (30_encoding.md R70). -/
inductive Reply where
  | status (value : Byte)
  | result (value : Byte)
  deriving DecidableEq, Repr

/-- A step of this block never faults: it raises no trap, every abnormal outcome is a code in STATUS.ERR, a dropped
issue or a hang (60_exceptions.md R228, R230), and an access outside the frame buffer is ignored, not faulted (20_memory.md R52). So the
type has no constructor (log entry 13). -/
inductive Fault where
  deriving DecidableEq, Repr

/-- Why a step has no meaning. -/
inductive Refusal where
  /-- Raised by exec's arm of an instruction that has no meaning yet, and by nothing else; no arm is left that
  raises it. Safe: the machine stops. -/
  | notModelled (mnemonic : String)
  deriving DecidableEq, Repr

/-- The machine: the block's state as 10_state.md lists it, and, below it, the model's own fields (INVENTORY.md). -/
structure State where
  /-- FB, the frame buffer (R22): the cells written since reset, as (linear index of 20_memory.md R51, byte), rising. An
  unlisted cell holds its reset draw (R24, log entry 6). -/
  fb : List Host.Cell
  /-- PSTATE (R25) -/
  pstate : PState
  /-- STATUS.ERR (R28) -/
  err : Err
  /-- STATUS.BUSYOP (R29) -/
  busyOp : Bool
  /-- STATUS.OVR (R30) -/
  ovr : Bool
  /-- RESULT (R32) -/
  result : Byte
  /-- the output pins (R33) -/
  pins : Pins
  /-- the hidden sequencer and framer position (R21, R37): what the running operation has still to do -/
  seq : List SeqOp
  /-- MODEL: the parameters (R40), the argument of the model; no step changes it -/
  cfg : Params
  /-- MODEL: what is still to arrive from the host and the reset input, first first -/
  host : List Arrival
  /-- MODEL: the BUSY levels the panel presents at the next samples, first first; then free levels -/
  busyIn : List Level
  /-- MODEL: how many samples have been taken -/
  samples : Nat
  /-- MODEL: how many block resets there have been after power-on -/
  resets : Nat
  /-- MODEL: the transcript (00_scope.md R8), newest event first -/
  trace : List Event
  /-- MODEL: what the read transactions have returned, newest first -/
  replies : List Reply
  deriving DecidableEq, Repr

/-- The output levels of 10_state.md R35. -/
def Pins.atReset (cfg : Params) : Pins where
  sclk := false
  sda := false
  dc := !cfg.dcCmdLevel
  cs := !cfg.csActiveLevel
  res := !cfg.resActiveLevel

/-- The five drives of block reset, newest first: 10_state.md R35 gives the order SCLK, SDA, DC, CS, RES. -/
def resetDrives (cfg : Params) : List Event :=
  [.drive .res (!cfg.resActiveLevel), .drive .cs (!cfg.csActiveLevel), .drive .dc (!cfg.dcCmdLevel), .drive .sda false,
    .drive .sclk false]

/-- The block right after power-on reset (70_reset_and_hazards.md R240), nothing having arrived yet. -/
def State.reset : State where
  fb := []
  pstate := .uninit
  err := .ok
  busyOp := false
  ovr := false
  result := 0#8
  pins := Pins.atReset Config.params
  seq := []
  cfg := Config.params
  host := []
  busyIn := []
  samples := 0
  resets := 0
  trace := resetDrives Config.params
  replies := []

end Sys2Proof.Machine
end

