-- ==== Sys2Proof/Machine/Flags.lean ====
section
/-! DEFINITION. STATUS and the codes of its fields. -/

namespace Sys2Proof.Machine

/-- PSTATE's encoding (10_state.md R25). -/
def pstateCode : PState → BitVec 3
  | .uninit => 0
  | .softReset => 1
  | .configuring => 2
  | .idle => 3
  | .transmitting => 4
  | .refreshing => 5
  | .busyWait => 6

/-- ERR's encoding (10_state.md R28). -/
def errCode : Err → BitVec 3
  | .ok => 0
  | .eillop => 1
  | .earg => 2
  | .eseq => 3
  | .etimeout => 4

/-- STATUS as software reads it (10_state.md R27): PSTATE in [7:5], OVR in [4], BUSYOP in [3], ERR in [2:0]. -/
def State.status (s : State) : Byte :=
  pstateCode s.pstate ++ BitVec.ofBool s.ovr ++ BitVec.ofBool s.busyOp ++ errCode s.err

/-- The states PSTATE may hold when no operation runs (10_state.md R25). -/
def PState.resting : PState → Bool
  | .uninit | .idle => true
  | .softReset | .configuring | .transmitting | .refreshing | .busyWait => false

end Sys2Proof.Machine
end

