-- ==== Sys2Proof/Machine/Memory.lean ====
section
/-! DEFINITION. Memory: a list of (address, byte) pairs, addresses strictly rising. -/

namespace Sys2Proof.Machine

/-- The frame buffer as data. -/
abbrev Memory := List Host.Cell

/-- The byte an address is listed with. An unlisted address has no value of its own here: the frame buffer reads it as its
reset draw (`State.fbCell`). -/
def Memory.lookup : Memory → Nat → Option Byte
  | [], _ => none
  | (a', v) :: m, a => if a' = a then some v else Memory.lookup m a

/-- Write one byte, keeping the addresses rising. -/
def Memory.write : Memory → Nat → Byte → Memory
  | [], a, v => [(a, v)]
  | (a', v') :: m, a, v =>
    if a < a' then (a, v) :: (a', v') :: m
    else if a = a' then (a, v) :: m
    else (a', v') :: Memory.write m a v

/-- Every address of the frame buffer listed, with the byte `f` gives it. -/
def Memory.tabulate (f : Nat → Byte) : Memory := (List.range FB_BYTES).map fun a => (a, f a)

/-- Addresses strictly rise from a lower bound and lie in the frame buffer. -/
def Memory.risesFrom : Nat → Memory → Bool
  | _, [] => true
  | lo, (a, _) :: m => lo ≤ a && a < FB_BYTES && Memory.risesFrom (a + 1) m

/-- The canonical form: strictly rising addresses, all in [0, 3967] (20_memory.md R51). A listed byte is never "equal to
what an unlisted address reads as", because an unlisted address has no known value (log entry 6). -/
def Memory.wf (m : Memory) : Bool := Memory.risesFrom 0 m

end Sys2Proof.Machine
end

