-- ==== Sys2Proof/Machine/Ops.lean ====
section
/-! DEFINITION. The named operations over the state: frame-buffer accesses, pins, samples, the end of an operation, errors, reset and
the arrival of inputs. -/

namespace Sys2Proof.Machine

/-! ### Byte operators (00_scope.md R12) -/

/-- `shl8(s, k) = (s × 2^k) mod 256`. -/
def shl8 (s : Byte) (k : Nat) : Byte := s <<< k

/-- `shr8(s, k) = s fdiv 2^k`. -/
def shr8 (s : Byte) (k : Nat) : Byte := s >>> k

/-- `bit(k) = 2^k`. -/
def bit (k : Nat) : Byte := BitVec.ofNat 8 (2 ^ k)

/-! ### The frame buffer (10_state.md R22, 20_memory.md R51, R52) -/

/-- inFB(p, c) (20_memory.md R52). -/
def inFB (p c : Int) : Bool := 0 ≤ p && p ≤ 15 && 0 ≤ c && c ≤ 247

/-- The linear index of a cell: p × 248 + c (20_memory.md R51). -/
def fbIndex (p c : Int) : Nat := (p * 248 + c).toNat

/-- MemRead(a, 1) (00_scope.md R13): the byte at linear index `a`, its reset draw where nothing has been written
since reset (10_state.md R24). -/
def State.fbCell (s : State) (a : Nat) : Byte := (Memory.lookup s.fb a).getD (Config.fbDraw s.resets a)

/-- MemWrite(a, 1, v) (00_scope.md R13). -/
def State.setFbCell (s : State) (a : Nat) (v : Byte) : State := { s with fb := Memory.write s.fb a v }

/-- FB[p][c]. -/
def State.fbByte (s : State) (p c : Int) : Byte := s.fbCell (fbIndex p c)

/-- FB[p][c] <- f(FB[p][c]): the one-byte read-modify-write of 20_memory.md R62, skipped outside the window
(R52). -/
def State.fbModify (s : State) (p c : Int) (f : Byte → Byte) : State :=
  if inFB p c then s.setFbCell (fbIndex p c) (f (s.fbByte p c)) else s

/-- `for i in [lo, lo + count): body`, in increasing order (00_scope.md R14). -/
def forRange (lo : Int) : Nat → (Int → State → State) → State → State
  | 0, _, s => s
  | n + 1, body, s => forRange (lo + 1) n body (body lo s)

/-! ### Pins and the transcript (00_scope.md R8, R13; 10_state.md R33, R34) -/

/-- The level an output holds. -/
def Pins.level (p : Pins) : Pin → Level
  | .sclk => p.sclk
  | .sda => p.sda
  | .dc => p.dc
  | .cs => p.cs
  | .res => p.res

/-- An output driven to a level. -/
def Pins.drive (p : Pins) (pin : Pin) (l : Level) : Pins :=
  match pin with
  | .sclk => { p with sclk := l }
  | .sda => { p with sda := l }
  | .dc => { p with dc := l }
  | .cs => { p with cs := l }
  | .res => { p with res := l }

/-- Drive(pin, level): the pin changes and the event is recorded. -/
def State.drive (s : State) (pin : Pin) (l : Level) : State :=
  { s with pins := s.pins.drive pin l, trace := .drive pin l :: s.trace }

/-- Delay(ms): recorded; the model has no clock (00_scope.md R8). -/
def State.delay (s : State) (ms : Nat) : State := { s with trace := .delay ms :: s.trace }

/-- The level of the BUSY pin at the sample `k` samples from now: the panel's list, then a free value (log entry 5). -/
def State.busyLevelAt (s : State) (k : Nat) : Level := s.busyIn.getD k (Config.busyLevel (s.samples + k))

/-- Whether the sample `k` samples from now reads busy: `v = BUSY_ACTIVE_LEVEL` (10_state.md R34). -/
def State.busyAt (s : State) (k : Nat) : Bool := s.busyLevelAt k == s.cfg.busyActiveLevel

/-- Sample() (00_scope.md R13, 10_state.md R36): the state after it; the value it gives is `s.busyAt 0`. -/
def State.sample (s : State) : State :=
  { s with busyIn := s.busyIn.tail, samples := s.samples + 1, trace := .sample (s.busyAt 0) :: s.trace }

/-! ### The life of an operation -/

/-- Accept (30_encoding.md R70, R77): BUSYOP <- 1, and the operation is at the start of its rule. -/
def State.accept (s : State) (prog : List SeqOp) : State := { s with busyOp := true, seq := prog }

/-- Finish(code) (00_scope.md R13): STATUS.ERR <- code, STATUS.BUSYOP <- 0, and nothing of the operation is left
(10_state.md R20, R37). -/
def State.finish (s : State) (code : Err) : State := { s with err := code, busyOp := false, seq := [] }

/-- raise E (00_scope.md R13): "finish with error code E and no other effect". It is all the exception mechanism this
block has: nothing is saved, no mode changes, control goes nowhere and there is no return (60_exceptions.md R228, R229). -/
def State.raise (s : State) (e : Err) : State := s.finish e

/-- A dropped issue (30_encoding.md R70, 60_exceptions.md R224): OVR <- 1 and nothing else changes. -/
def State.dropIssue (s : State) : State := { s with ovr := true }

/-- A received issue (30_encoding.md R70): OVR <- 0, before decode. -/
def State.receiveIssue (s : State) : State := { s with ovr := false }

/-- ReadStatus() (30_encoding.md R70). -/
def State.readStatus (s : State) : State := { s with replies := .status s.status :: s.replies }

/-- ReadResult() (30_encoding.md R70). -/
def State.readResult (s : State) : State := { s with replies := .result s.result :: s.replies }

/-- Block reset (70_reset_and_hazards.md R240): the running operation is aborted, the frame buffer is a fresh draw, the
registers take their reset values and the outputs are driven to their reset levels. The parameters are unchanged (10_state.md R40), and
what the outside world has seen or is going to do is not the block's to reset (log entry 18). -/
def State.blockReset (s : State) : State :=
  { s with
    fb := []
    resets := s.resets + 1
    pstate := .uninit
    err := .ok
    busyOp := false
    ovr := false
    result := 0#8
    seq := []
    pins := Pins.atReset s.cfg
    trace := resetDrives s.cfg ++ s.trace }

/-! ### Arrivals (log entry 4) -/

/-- One micro-operation has passed: the next arrival is one nearer. -/
def tickArrivals : List Arrival → List Arrival
  | [] => []
  | a :: r => { a with gap := a.gap - 1 } :: r

/-- One micro-operation has passed. -/
def State.tick (s : State) : State := { s with host := tickArrivals s.host }

/-- Whether an input lands before the running operation's next micro-operation. -/
def State.inputDue (s : State) : Bool :=
  match s.host with
  | [] => false
  | a :: _ => a.gap == 0

/-- The input that lands now, if one does, and the state without it: an input lands when it is due, and at once when no operation
runs. -/
def State.takeInput (s : State) : Option (Input × State) :=
  match s.host with
  | [] => none
  | a :: r => if s.seq.isEmpty || a.gap == 0 then some (a.input, { s with host := r }) else none

end Sys2Proof.Machine
end

