-- ==== Sys2Proof/Machine/Compositor.lean ====
section
/-! DEFINITION. The frame-buffer compositor: the addresser (20_memory.md R53 to R56) and the bodies of the compositing operations
(40_framebuffer.md R100 to R108). -/

namespace Sys2Proof.Machine

/-- inPix(X, Y) (20_memory.md R53). -/
def inPix (X Y : Int) : Bool := 0 ≤ X && X ≤ 247 && 0 ≤ Y && Y ≤ 127

/-- devRow(Y) = 127 − Y (20_memory.md R54). -/
def devRow (Y : Int) : Int := 127 - Y

/-- page(Y) = devRow(Y) fdiv 8. -/
def pageOf (Y : Int) : Int := (devRow Y).fdiv 8

/-- bitpos(Y) = devRow(Y) fmod 8. -/
def bitPosOf (Y : Int) : Nat := ((devRow Y).fmod 8).toNat

/-- deviceY = 128 − y − h (20_memory.md R55). -/
def deviceYOf (y : Int) (h : Nat) : Int := 128 - y - h

/-- The page/shift split of deviceY: truncating division, then the sign correction (20_memory.md R56). -/
def splitDeviceY (deviceY : Int) : Int × Int :=
  let page := deviceY.tdiv 8
  let shift := deviceY.tmod 8
  if deviceY < 0 then (page - 1, shift + 8) else (page, shift)

/-- CLEAR's loops (R100). -/
def State.clearAll (s : State) : State := { s with fb := Memory.tabulate fun _ => 0#8 }

/-- REVERSE's loops (R102). -/
def State.reverseAll (s : State) : State := { s with fb := Memory.tabulate fun a => s.fbCell a ^^^ 0xFF#8 }

/-- The loops over the in-window logical pixels of [x, x+w) × [y, y+h), shared by R101 and R103: `f` is what happens to the
byte of a pixel, given the pixel's bit position. -/
def State.forPixels (x y : Int) (w h : Nat) (f : Nat → Byte → Byte) (s : State) : State :=
  forRange y h
    (fun Y s => forRange x w (fun X s => if inPix X Y then s.fbModify (pageOf Y) X (f (bitPosOf Y)) else s) s) s

/-- CLEARAREA-body(x, y, w, h) (R101). -/
def State.clearAreaBody (x y : Int) (w h : Nat) (s : State) : State :=
  s.forPixels x y w h fun k v => v &&& ~~~ bit k

/-- REVERSEAREA's loops (R103). -/
def State.reverseAreaBody (x y : Int) (w h : Nat) (s : State) : State :=
  s.forPixels x y w h fun k v => v ^^^ bit k

/-- The two writes of one strip byte (R104): into page p1 = page − j and page p2 = page − j − 1 of column c, each
clipped on its own. -/
def State.orStripByte (page shift j c : Int) (v : Byte) (s : State) : State :=
  let s1 := s.fbModify (page - j) c fun old => old ||| shl8 v shift.toNat
  s1.fbModify (page - j - 1) c fun old => old ||| shr8 v (8 - shift).toNat

/-- PLOTIMAGE (R104): the clear of the caller's rectangle, then the strips. -/
def State.plotBody (x y : Int) (w h : Nat) (bitmap : List Byte) (s : State) : State :=
  let (page, shift) := splitDeviceY (deviceYOf y h)
  forRange 0 (stripCount h)
    (fun j s => forRange 0 w
      (fun i s => s.orStripByte page shift j (x + i) (bitmap.getD (j * w + i).toNat 0#8)) s)
    (s.clearAreaBody x y w h)

/-- READFB's body (R108). -/
def State.readBody (col pg : Int) (s : State) : State :=
  { s with result := if inFB pg col then s.fbByte pg col else 0#8 }

/-- The frame-buffer part of an operation. -/
def State.doFb (s : State) : FbOp → State
  | .clear => s.clearAll
  | .clearArea x y w h => s.clearAreaBody x y w h
  | .reverse => s.reverseAll
  | .reverseArea x y w h => s.reverseAreaBody x y w h
  | .plot x y w h bitmap => s.plotBody x y w h bitmap
  | .read col pg => s.readBody col pg

end Sys2Proof.Machine
end

