-- ==== Sys2Proof/Machine/Framer.lean ====
section
/-! DEFINITION. The serial framer's primitives as lists of micro-operations (41_serial_bus.md R130 to R135, 43_wire_commands.md Emit). -/

namespace Sys2Proof.Machine

/-- The level of DC for a frame's kind (10_state.md R34). -/
def dcLevel (cfg : Params) : Kind → Level
  | .cmd => cfg.dcCmdLevel
  | .data => !cfg.dcCmdLevel

/-- One bit cell: SCLK <- 0, SDA <- the bit value, SCLK <- 1 (30_encoding.md R79). -/
def bitCell (b : Level) : List SeqOp := [.drive .sclk false, .drive .sda b, .drive .sclk true]

/-- ShiftByte(v): bit 7 first (41_serial_bus.md R130). -/
def shiftByte (v : Byte) : List SeqOp := [7, 6, 5, 4, 3, 2, 1, 0].flatMap fun k => bitCell (v.getLsbD k)

/-- Frame(kind, bs) (41_serial_bus.md R131). -/
def frame (cfg : Params) (kind : Kind) (bs : List Byte) : List SeqOp :=
  .drive .cs cfg.csActiveLevel :: .drive .dc (dcLevel cfg kind) :: (bs.flatMap shiftByte ++ [.drive .cs (!cfg.csActiveLevel)])

/-- WriteCommand(b) (41_serial_bus.md R131). -/
def writeCommand (cfg : Params) (b : Byte) : List SeqOp := frame cfg .cmd [b]

/-- WriteData(bs) (41_serial_bus.md R131). -/
def writeData (cfg : Params) (bs : List Byte) : List SeqOp := frame cfg .data bs

/-- SendPayload(bs) (41_serial_bus.md R132). -/
def sendPayload (cfg : Params) (bs : List Byte) : List SeqOp :=
  match cfg.dataFraming with
  | .perPayload => if bs.isEmpty then [] else writeData cfg bs
  | .perByte => bs.flatMap fun b => writeData cfg [b]

/-- Emit(op, P): WriteCommand(op), then SendPayload(P) (43_wire_commands.md). -/
def emit (cfg : Params) (op : Byte) (p : List Byte) : List SeqOp := writeCommand cfg op ++ sendPayload cfg p

/-- SEND op, P as the host sends it: WRCMD's frame, then the payload, if there is one, as WRDATA's one frame, whatever DATA_FRAMING says
(30_encoding.md R85, 41_serial_bus.md R132, R134, 43_wire_commands.md). -/
def hostSend (cfg : Params) (op : Byte) (p : List Byte) : List SeqOp :=
  writeCommand cfg op ++ if p.isEmpty then [] else writeData cfg p

/-- The command bytes that only a host sends: 0x32 (43_wire_commands.md R199) and 0x0F (R205). The alternative use of 0x01 is a host's too (R206);
its one payload byte is one frame either way. -/
def hostOnly (op : Byte) : Bool := op == 0x32#8 || op == 0x0F#8

/-- A wire command as the one who sends it puts it on the wire. -/
def wireOps (cfg : Params) (op : Byte) (p : List Byte) : List SeqOp := if hostOnly op then hostSend cfg op p else emit cfg op p

/-- WaitBusy() (41_serial_bus.md R135): the poll loop, then the settle delay. -/
def waitBusyOps (cfg : Params) : List SeqOp := [.poll, .delay cfg.tSettleMs]

end Sys2Proof.Machine
end

