-- ==== Sys2Proof/Machine/Run.lean ====
section
/-! DEFINITION. Running an operation: what one micro-operation does, and how far a step carries the operation. -/

namespace Sys2Proof.Machine

/-- One micro-operation, `rest` being what follows it in the operation. The Bool says that the step ends here: an unbounded
wait that samples busy ends the step, so that a wait that never ends is an infinite run of steps, one `Sample(true)` each
(41_serial_bus.md R135, 60_exceptions.md R230; log entry 3). -/
def State.micro (s : State) (op : SeqOp) (rest : List SeqOp) : State × Bool :=
  match op with
  | .drive pin l => ({ (s.drive pin l).tick with seq := rest }, false)
  | .delay ms => ({ (s.delay ms).tick with seq := rest }, false)
  | .setPState p => ({ s.tick with pstate := p, seq := rest }, false)
  | .poll =>
    if s.busyAt 0 then ({ s.sample.tick with seq := .poll :: rest }, true) else ({ s.sample.tick with seq := rest }, false)
  | .pollBounded 0 => (s.tick.finish .etimeout, false)
  | .pollBounded (n + 1) =>
    if s.busyAt 0 then ({ s.sample.tick with seq := .pollBounded n :: rest }, false)
    else ({ s.sample.tick with seq := [.delay s.cfg.tSettleMs, .finish .ok] }, false)
  | .wire b p => ({ s with seq := wireOps s.cfg b p ++ rest }, false)
  | .fb f => ({ (s.doFb f).tick with seq := rest }, false)
  | .finish code => (s.tick.finish code, false)
  | .finishIdle => (({ s.tick with pstate := .idle }).finish .ok, false)

/-- How many micro-operations one entry of an operation can still come to. -/
def SeqOp.work (cfg : Params) : SeqOp → Nat
  | .pollBounded n => n + 3
  | .wire b p => (wireOps cfg b p).length + 1
  | .drive _ _ | .delay _ | .setPState _ | .poll | .fb _ | .finish _ | .finishIdle => 1

/-- How many micro-operations an operation can still come to, repeated samples of a busy panel apart. -/
def seqWork (cfg : Params) (l : List SeqOp) : Nat := (l.map (SeqOp.work cfg)).sum

/-- Carry the running operation on, for at most `n` micro-operations: until it finishes, an unbounded wait samples
busy, or an input is due. -/
def State.advanceFor : Nat → State → State
  | 0, s => s
  | n + 1, s =>
    match s.seq with
    | [] => s
    | op :: rest =>
      if s.inputDue then s
      else
        match s.micro op rest with
        | (s', true) => s'
        | (s', false) => State.advanceFor n s'

/-- Carry the running operation on as far as one step does. The bound is the operation's own length, so it never
cuts an operation short (Laws/Run.lean, `advance_stops`). -/
def State.advance (s : State) : State := s.advanceFor (seqWork s.cfg s.seq)

/-- A received host operation that decode's step 3 and 4 have passed or not (30_encoding.md R77): EARG, or accept and
run the operation's rule. -/
def State.issue (s : State) (i : Instr) (prog : List SeqOp) : State :=
  if argsOk i then (s.accept prog).advance else s.raise .earg

/-- Emit a wire command, then go on with what the sequencer has still to do (43_wire_commands.md, Emit). -/
def State.emitWire (s : State) (op : Byte) (p : List Byte) : State := { s with seq := emit s.cfg op p ++ s.seq }.advance

/-- Send a wire command as a host does, its payload in one frame, then go on with what there is still to do (43_wire_commands.md R199,
R205, R206). -/
def State.sendWire (s : State) (op : Byte) (p : List Byte) : State := { s with seq := hostSend s.cfg op p ++ s.seq }.advance

end Sys2Proof.Machine
end

