-- ==== Sys2Proof/Machine/FrameBuffer.lean ====
section
/-! DEFINITION. The meanings of CLEAR, CLEARAREA, REVERSE, REVERSEAREA, PLOTIMAGE and READFB (40_framebuffer.md). Each emits no
event, drives no pin, leaves PSTATE and ends with Finish(OK) (R99). -/

namespace Sys2Proof.Machine

/-- CLEAR (R100). -/
def execClear (st : List Byte) (s : State) : Host.Outcome State Fault Refusal :=
  .next (s.issue (.clear st) [.fb .clear, .finish .ok])

/-- CLEARAREA (R101); x and y signed, w and h unsigned (30_encoding.md R74). -/
def execClearArea (x y : Half) (w h : Byte) (st : List Byte) (s : State) : Host.Outcome State Fault Refusal :=
  .next (s.issue (.clearArea x y w h st) [.fb (.clearArea (sext16 x) (sext16 y) (zext w) (zext h)), .finish .ok])

/-- REVERSE (R102). -/
def execReverse (st : List Byte) (s : State) : Host.Outcome State Fault Refusal :=
  .next (s.issue (.reverse st) [.fb .reverse, .finish .ok])

/-- REVERSEAREA (R103). -/
def execReverseArea (x y : Half) (w h : Byte) (st : List Byte) (s : State) : Host.Outcome State Fault Refusal :=
  .next (s.issue (.reverseArea x y w h st) [.fb (.reverseArea (sext16 x) (sext16 y) (zext w) (zext h)), .finish .ok])

/-- PLOTIMAGE (R104); the operand stream is the bitmap. -/
def execPlotImage (x y : Half) (w h : Byte) (st : List Byte) (s : State) : Host.Outcome State Fault Refusal :=
  .next (s.issue (.plotImage x y w h st) [.fb (.plot (sext16 x) (sext16 y) (zext w) (zext h) st), .finish .ok])

/-- READFB (R108). -/
def execReadFb (col pg : Half) (st : List Byte) (s : State) : Host.Outcome State Fault Refusal :=
  .next (s.issue (.readFb col pg st) [.fb (.read (sext16 col) (sext16 pg)), .finish .ok])

end Sys2Proof.Machine
end

