-- ==== Sys2Proof/Machine/Sequencer.lean ====
section
/-! DEFINITION. The panel sequencer: INIT and UPDATE (42_panel_controller.md). -/

namespace Sys2Proof.Machine

/-- ResetPulse() (R161). -/
def resetPulse (cfg : Params) : List SeqOp :=
  [.drive .res (!cfg.resActiveLevel), .delay cfg.tRstPreMs, .drive .res cfg.resActiveLevel, .delay cfg.tRstActiveMs,
    .drive .res (!cfg.resActiveLevel), .delay cfg.tRstPostMs]

/-- CONFIG_SEQ (R163), in table order. -/
def configSeq (cfg : Params) : List (Byte × List Byte) :=
  [(0x01#8, cfg.drvOut.toList), (0x11#8, cfg.dataEntry.toList), (0x44#8, cfg.winX.toList), (0x45#8, cfg.winY.toList),
    (0x3C#8, cfg.border.toList), (0x2C#8, cfg.vcom.toList), (0x03#8, cfg.gateV.toList), (0x04#8, cfg.sourceV.toList)]

/-- What INIT does after its first line, PSTATE <- UNINIT (R162). -/
def initOps (cfg : Params) : List SeqOp :=
  resetPulse cfg
    ++ [.setPState .softReset] ++ waitBusyOps cfg
    ++ [.wire 0x12#8 []] ++ waitBusyOps cfg
    ++ [.setPState .configuring]
    ++ (configSeq cfg).map (fun (op, p) => .wire op p)
    ++ [.wire 0x24#8 (List.replicate cfg.initFillCount cfg.initFill)] ++ waitBusyOps cfg
    ++ [.finishIdle]

/-- The frame buffer in stream order: page-major, column-minor, which is linear index order (20_memory.md R58). -/
def State.fbStream (s : State) : List Byte := (List.range FB_BYTES).map s.fbCell

/-- The optional counter prelude of UPDATE (R168). -/
def counterPrelude (cfg : Params) : List SeqOp :=
  if cfg.updateSetCounters then [.wire 0x4E#8 cfg.cntX.toList, .wire 0x4F#8 cfg.cntY.toList] else []

/-- What UPDATE does after its first line, PSTATE <- TRANSMITTING (R166), `stream` being FB at acceptance
(R169). -/
def updateOps (cfg : Params) (stream : List Byte) : List SeqOp :=
  [.wire 0x44#8 cfg.winX.toList, .wire 0x45#8 cfg.winY.toList]
    ++ counterPrelude cfg
    ++ [.wire 0x24#8 stream, .setPState .refreshing, .wire 0x22#8 [cfg.updMode], .wire 0x20#8 [], .setPState .busyWait]
    ++ waitBusyOps cfg
    ++ [.finishIdle]

/-- INIT (R162), accepted in every PSTATE (R173, R176). PSTATE <- UNINIT happens with the acceptance (R160). -/
def execInit (st : List Byte) (s : State) : Host.Outcome State Fault Refusal :=
  .next (if argsOk (.init st) then ({ s with pstate := .uninit }.accept (initOps s.cfg)).advance else s.raise .earg)

/-- UPDATE (R166). ESEQ outside IDLE (R167) is decode step 5, after the argument checks (30_encoding.md R77). PSTATE
<- TRANSMITTING happens with the acceptance (R160). -/
def execUpdate (st : List Byte) (s : State) : Host.Outcome State Fault Refusal :=
  .next
    (if argsOk (.update st) then
      if s.pstate = .idle then ({ s with pstate := .transmitting }.accept (updateOps s.cfg s.fbStream)).advance
      else s.raise .eseq
    else s.raise .earg)

end Sys2Proof.Machine
end

