-- ==== Sys2Proof/Machine/Serial.lean ====
section
/-! DEFINITION. The meanings of WRCMD, WRDATA, WAITBUSY and WAITBUSYB (41_serial_bus.md). None reads or writes PSTATE (42_panel_controller.md
R176). -/

namespace Sys2Proof.Machine

/-- WRCMD (R133): one command frame; the byte is not checked (30_encoding.md R82). -/
def execWrCmd (byte : Byte) (st : List Byte) (s : State) : Host.Outcome State Fault Refusal :=
  .next (s.issue (.wrCmd byte st) (writeCommand s.cfg byte ++ [.finish .ok]))

/-- WRDATA (R134): the N stream bytes as one data frame, whatever DATA_FRAMING says. -/
def execWrData (n : Half) (st : List Byte) (s : State) : Host.Outcome State Fault Refusal :=
  .next (s.issue (.wrData n st) (writeData s.cfg st ++ [.finish .ok]))

/-- WAITBUSY (R135). -/
def execWaitBusy (st : List Byte) (s : State) : Host.Outcome State Fault Refusal :=
  .next (s.issue (.waitBusy st) (waitBusyOps s.cfg ++ [.finish .ok]))

/-- WAITBUSYB (R136): a reserved encoding where HAS_BOUNDED_WAIT is false (30_encoding.md R76). -/
def execWaitBusyB (limit : Half) (st : List Byte) (s : State) : Host.Outcome State Fault Refusal :=
  .next (if s.cfg.hasBoundedWait then s.issue (.waitBusyB limit st) [.pollBounded (zext limit)] else s.raise .eillop)

end Sys2Proof.Machine
end

