-- ==== Sys2Proof/Machine/Wire.lean ====
section
/-! DEFINITION. The meanings of the wire commands (43_wire_commands.md). The block emits a wire command and the panel executes it, so the
meaning of each is a command frame, then the payload; nothing of the block changes but the pins and the transcript (R208). A command that INIT or
UPDATE sends is Emit(op, P), its payload framed as DATA_FRAMING says; one that only a host sends has its payload in one frame. The payload is sent
as it is, whatever its length (30_encoding.md R82). -/

namespace Sys2Proof.Machine

/-- 0x12, software reset (R190). -/
def execSwReset (p : List Byte) (s : State) : Host.Outcome State Fault Refusal := .next (s.emitWire 0x12#8 p)

/-- 0x01, driver output control (R191). -/
def execDrvOut (p : List Byte) (s : State) : Host.Outcome State Fault Refusal := .next (s.emitWire 0x01#8 p)

/-- 0x11, data entry mode (R192). -/
def execDataEntry (p : List Byte) (s : State) : Host.Outcome State Fault Refusal := .next (s.emitWire 0x11#8 p)

/-- 0x44, RAM X address window (R193). -/
def execRamXWindow (p : List Byte) (s : State) : Host.Outcome State Fault Refusal := .next (s.emitWire 0x44#8 p)

/-- 0x45, RAM Y address window (R194). -/
def execRamYWindow (p : List Byte) (s : State) : Host.Outcome State Fault Refusal := .next (s.emitWire 0x45#8 p)

/-- 0x3C, border waveform control (R195). -/
def execBorderWaveform (p : List Byte) (s : State) : Host.Outcome State Fault Refusal := .next (s.emitWire 0x3C#8 p)

/-- 0x2C, VCOM voltage (R196). -/
def execVcom (p : List Byte) (s : State) : Host.Outcome State Fault Refusal := .next (s.emitWire 0x2C#8 p)

/-- 0x03, gate driving voltage (R197). -/
def execGateVoltage (p : List Byte) (s : State) : Host.Outcome State Fault Refusal := .next (s.emitWire 0x03#8 p)

/-- 0x04, source driving voltage (R198). -/
def execSourceVoltage (p : List Byte) (s : State) : Host.Outcome State Fault Refusal := .next (s.emitWire 0x04#8 p)

/-- 0x32, LUT register write, sent by hosts only, its payload one burst (R199). -/
def execLutWrite (p : List Byte) (s : State) : Host.Outcome State Fault Refusal := .next (s.sendWire 0x32#8 p)

/-- 0x24, write black/white RAM (R200). -/
def execWriteRamBw (p : List Byte) (s : State) : Host.Outcome State Fault Refusal := .next (s.emitWire 0x24#8 p)

/-- 0x22, display update control (R201). -/
def execUpdateControl (p : List Byte) (s : State) : Host.Outcome State Fault Refusal := .next (s.emitWire 0x22#8 p)

/-- 0x20, activate display update (R202). -/
def execActivateUpdate (p : List Byte) (s : State) : Host.Outcome State Fault Refusal := .next (s.emitWire 0x20#8 p)

/-- 0x4E, X RAM counter (R203). -/
def execRamXCounter (p : List Byte) (s : State) : Host.Outcome State Fault Refusal := .next (s.emitWire 0x4E#8 p)

/-- 0x4F, Y RAM counter (R204). -/
def execRamYCounter (p : List Byte) (s : State) : Host.Outcome State Fault Refusal := .next (s.emitWire 0x4F#8 p)

/-- 0x0F, cursor column start, sent by hosts only (R205). -/
def execCursorColStart (p : List Byte) (s : State) : Host.Outcome State Fault Refusal := .next (s.sendWire 0x0F#8 p)

/-- 0x01, cursor length, the alternative use of 0x01, sent by hosts only (R206). -/
def execCursorLengthAlt01 (p : List Byte) (s : State) : Host.Outcome State Fault Refusal := .next (s.sendWire 0x01#8 p)

end Sys2Proof.Machine
end

