-- ==== Sys2Proof/Machine/Dispatch.lean ====
section
/-! DEFINITION. The dispatch: one arm per constructor of Instr. -/

namespace Sys2Proof.Machine

def exec (i : Instr) (s : State) : Host.Outcome State Fault Refusal :=
  match i with
  | .clear stream => Sys2Proof.Machine.execClear stream s
  | .clearArea x y w h stream => Sys2Proof.Machine.execClearArea x y w h stream s
  | .reverse stream => Sys2Proof.Machine.execReverse stream s
  | .reverseArea x y w h stream => Sys2Proof.Machine.execReverseArea x y w h stream s
  | .plotImage x y w h stream => Sys2Proof.Machine.execPlotImage x y w h stream s
  | .wrCmd byte stream => Sys2Proof.Machine.execWrCmd byte stream s
  | .wrData n stream => Sys2Proof.Machine.execWrData n stream s
  | .waitBusy stream => Sys2Proof.Machine.execWaitBusy stream s
  | .init stream => Sys2Proof.Machine.execInit stream s
  | .update stream => Sys2Proof.Machine.execUpdate stream s
  | .readFb col pg stream => Sys2Proof.Machine.execReadFb col pg stream s
  | .waitBusyB limit stream => Sys2Proof.Machine.execWaitBusyB limit stream s
  | .swReset payload => Sys2Proof.Machine.execSwReset payload s
  | .drvOut payload => Sys2Proof.Machine.execDrvOut payload s
  | .dataEntry payload => Sys2Proof.Machine.execDataEntry payload s
  | .ramXWindow payload => Sys2Proof.Machine.execRamXWindow payload s
  | .ramYWindow payload => Sys2Proof.Machine.execRamYWindow payload s
  | .borderWaveform payload => Sys2Proof.Machine.execBorderWaveform payload s
  | .vcom payload => Sys2Proof.Machine.execVcom payload s
  | .gateVoltage payload => Sys2Proof.Machine.execGateVoltage payload s
  | .sourceVoltage payload => Sys2Proof.Machine.execSourceVoltage payload s
  | .lutWrite payload => Sys2Proof.Machine.execLutWrite payload s
  | .writeRamBw payload => Sys2Proof.Machine.execWriteRamBw payload s
  | .updateControl payload => Sys2Proof.Machine.execUpdateControl payload s
  | .activateUpdate payload => Sys2Proof.Machine.execActivateUpdate payload s
  | .ramXCounter payload => Sys2Proof.Machine.execRamXCounter payload s
  | .ramYCounter payload => Sys2Proof.Machine.execRamYCounter payload s
  | .cursorColStart payload => Sys2Proof.Machine.execCursorColStart payload s
  | .cursorLengthAlt01 payload => Sys2Proof.Machine.execCursorLengthAlt01 payload s

end Sys2Proof.Machine
end

