-- ==== Sys2Proof/Machine/HostPort.lean ====
section
/-! DEFINITION. What lands at the host port and the reset input, and how the sequencer comes to a wire command. -/

namespace Sys2Proof.Machine

/-- Issue(desc, stream) (30_encoding.md R70): dropped while an operation runs; otherwise received and decoded (R77), EILLOP where the
decoder refuses it, else the decoded operation. -/
def State.handleIssue (s : State) (desc : Desc) (stream : List Byte) : Host.Outcome State Fault Refusal :=
  if s.busyOp then .next s.dropIssue
  else
    match decode s.cfg.hasBoundedWait (.host desc stream) with
    | .ok i => exec i s.receiveIssue
    | .error _ => .next (s.receiveIssue.raise .eillop)

/-- An input lands. -/
def State.handleInput (s : State) : Input → Host.Outcome State Fault Refusal
  | .issue desc stream => s.handleIssue desc stream
  | .readStatus => .next s.readStatus
  | .readResult => .next s.readResult
  | .blockReset => .next s.blockReset

/-- The running operation goes on. Where the sequencer stands at a wire command of the table, that command is the instruction
that runs next; every other micro-operation is part of the operation that is running. With nothing running the block waits for the
host's next issue (70_reset_and_hazards.md R242). -/
def State.resume (s : State) : Host.Outcome State Fault Refusal :=
  match s.seq with
  | .wire op p :: rest =>
    match decode s.cfg.hasBoundedWait (.wire op p) with
    | .ok i => exec i { s with seq := rest }
    | .error _ => .next s.advance
  | _ => .next s.advance

/-- The block with the next instruction of an image in place (log entry 10). A descriptor is what the host issues next, to a block
that runs nothing. A wire command is where the sequencer stands, in an operation that ends after it if nothing else is left of it. -/
def State.placeImage (s : State) : Image → State
  | .host desc stream => { s with host := { gap := 0, input := .issue desc stream } :: s.host, seq := [], busyOp := false }
  | .wire op p =>
    { s with
      host := []
      busyOp := true
      seq := .wire op p :: (if s.seq.isEmpty then [.finish .ok] else s.seq) }

end Sys2Proof.Machine
end

