-- ==== Sys2Proof/Machine/Step.lean ====
section
/-! DEFINITION. One step: the input that lands now, or else the running operation. -/

namespace Sys2Proof.Machine

/-- One step of the machine. -/
def step (s : State) : Host.Outcome State Fault Refusal :=
  match s.takeInput with
  | some (input, s') => s'.handleInput input
  | none => s.resume

/-- The state in which the very next step runs the instruction of an opcode-table word (log entry 10). -/
def State.withFetchWord (s : State) (nbits w : Nat) : State := s.placeImage (tableImage nbits w)

end Sys2Proof.Machine
end

