-- ==== Sys2Proof/Machine/Assembler.lean ====
section
/-! DEFINITION. The assembler of 30_encoding.md R84 and the pseudo-operation SEND of R85, on lines already read from text. -/

namespace Sys2Proof.Machine

/-- A line of assembly (30_encoding.md R84), with its numbers as written. -/
inductive AsmLine where
  | clear
  | clearArea (x y w h : Int)
  | reverse
  | reverseArea (x y w h : Int)
  | plotImage (x y w h : Int) (bytes : List Int)
  | wrCmd (byte : Int)
  | wrData (bytes : List Int)
  | waitBusy
  | init
  | update
  | readFb (col page : Int)
  | waitBusyB (limit : Int)
  /-- `.desc`: a raw descriptor, for reserved encodings -/
  | desc (d : Desc) (bytes : List Int)
  /-- `SEND op, b0, …` (R85) -/
  | send (op : Int) (bytes : List Int)
  deriving DecidableEq, Repr

/-- A signed 16-bit operand, refused outside [−32768, 32767]. -/
def asmSigned (v : Int) : Option Half := if -32768 ≤ v ∧ v ≤ 32767 then some (BitVec.ofInt 16 v) else none

/-- An unsigned 8-bit operand, refused outside [0, 255]. -/
def asmByte (v : Int) : Option Byte := if 0 ≤ v ∧ v ≤ 255 then some (BitVec.ofInt 8 v) else none

/-- An unsigned 16-bit operand, refused outside [0, 65535]. -/
def asmHalf (v : Int) : Option Half := if 0 ≤ v ∧ v ≤ 65535 then some (BitVec.ofInt 16 v) else none

/-- The bytes of a bracketed list, in order. -/
def asmBytes : List Int → Option (List Byte)
  | [] => some []
  | v :: vs =>
    match asmByte v, asmBytes vs with
    | some b, some bs => some (b :: bs)
    | _, _ => none

/-- A bracketed list: refused when it is longer than 65535. -/
def asmStream (l : List Int) : Option (List Byte) := if l.length ≤ 65535 then asmBytes l else none

/-- An FA line (30_encoding.md R73). -/
def asmArea (op : HostOp) (x y w h : Int) (st : List Byte) : Option Image := do
  let x ← asmSigned x
  let y ← asmSigned y
  let w ← asmByte w
  let h ← asmByte h
  pure (.host (mkDesc op x y w h) st)

/-- A WRDATA line: N is the number of bytes listed. -/
def asmWrData (bytes : List Int) : Option Image := do
  let st ← asmStream bytes
  let n ← asmHalf bytes.length
  pure (.host (mkDesc .wrData n 0 0 0) st)

/-- A WRCMD line. -/
def asmWrCmd (byte : Int) : Option Image := do
  let b ← asmByte byte
  pure (.host (mkDesc .wrCmd (b.setWidth 16) 0 0 0) [])

/-- The issues a line stands for: one for an operation, one or two for SEND (R85). -/
def assemble : AsmLine → Option (List Image)
  | .clear => some [.host (mkDesc .clear 0 0 0 0) []]
  | .clearArea x y w h => do pure [← asmArea .clearArea x y w h []]
  | .reverse => some [.host (mkDesc .reverse 0 0 0 0) []]
  | .reverseArea x y w h => do pure [← asmArea .reverseArea x y w h []]
  | .plotImage x y w h bytes => do pure [← asmArea .plotImage x y w h (← asmStream bytes)]
  | .wrCmd byte => do pure [← asmWrCmd byte]
  | .wrData bytes => do pure [← asmWrData bytes]
  | .waitBusy => some [.host (mkDesc .waitBusy 0 0 0 0) []]
  | .init => some [.host (mkDesc .init 0 0 0 0) []]
  | .update => some [.host (mkDesc .update 0 0 0 0) []]
  | .readFb col page => do pure [.host (mkDesc .readFb (← asmSigned col) (← asmSigned page) 0 0) []]
  | .waitBusyB limit => do pure [.host (mkDesc .waitBusyB (← asmHalf limit) 0 0 0) []]
  | .desc d bytes => do pure [.host d (← asmStream bytes)]
  | .send op [] => do pure [← asmWrCmd op]
  | .send op (b :: bs) => do pure [← asmWrCmd op, ← asmWrData (b :: bs)]

end Sys2Proof.Machine
end

