-- ==== Sys2Proof/Machine/Transcript.lean ====
section
/-! DEFINITION. The byte-level view of a transcript: what a receiver on the pins sees (41_serial_bus.md R137). -/

namespace Sys2Proof.Machine

/-- An entry of the byte-level view: a byte tagged with its frame's kind, a drive of RES, a delay or a sample. -/
inductive Item where
  | byte (kind : Kind) (value : Byte)
  | res (level : Level)
  | delay (ms : Nat)
  | sample (busy : Bool)
  deriving DecidableEq, Repr

/-- What a receiver holds: the levels it sees and the bits of the current byte, newest first. -/
structure Receiver where
  sclk : Level
  sda : Level
  dc : Level
  cs : Level
  bits : List Level
  deriving DecidableEq, Repr

/-- A receiver that has seen the pins come to these levels and holds no bit. -/
def Receiver.ofPins (p : Pins) : Receiver where
  sclk := p.sclk
  sda := p.sda
  dc := p.dc
  cs := p.cs
  bits := []

/-- The kind a level of DC tells (30_encoding.md R83). -/
def kindOfLevel (cfg : Params) (l : Level) : Kind := if l = cfg.dcCmdLevel then .cmd else .data

/-- One event seen by the receiver: it samples SDA on each 0→1 edge of SCLK while CS is active (30_encoding.md R79, 41_serial_bus.md R130),
most significant bit first, and the eighth bit completes a byte. A change of CS drops the bits of an unfinished byte. -/
def Receiver.see (cfg : Params) (r : Receiver) : Event → Receiver × List Item
  | .drive .sclk l =>
    if l && !r.sclk && r.cs == cfg.csActiveLevel then
      if r.bits.length = 7 then
        ({ r with sclk := l, bits := [] },
          [.byte (kindOfLevel cfg r.dc) ((BitVec.ofBoolListLE (r.sda :: r.bits)).setWidth 8)])
      else ({ r with sclk := l, bits := r.sda :: r.bits }, [])
    else ({ r with sclk := l }, [])
  | .drive .sda l => ({ r with sda := l }, [])
  | .drive .dc l => ({ r with dc := l }, [])
  | .drive .cs l => ({ r with cs := l, bits := [] }, [])
  | .drive .res l => (r, [.res l])
  | .delay ms => (r, [.delay ms])
  | .sample b => (r, [.sample b])

/-- The byte-level view of a list of events, oldest first. -/
def byteView (cfg : Params) (r : Receiver) : List Event → List Item
  | [] => []
  | e :: es => (r.see cfg e).2 ++ byteView cfg (r.see cfg e).1 es

/-- The receiver after a list of events. -/
def Receiver.after (cfg : Params) (r : Receiver) : List Event → Receiver
  | [] => r
  | e :: es => Receiver.after cfg (r.see cfg e).1 es

/-- The outputs after an event: a drive changes its pin, nothing else does (10_state.md R33). -/
def Pins.onEvent (p : Pins) : Event → Pins
  | .drive pin l => p.drive pin l
  | .delay _ => p
  | .sample _ => p

/-- The event a micro-operation emits, where it emits one whatever the state is. -/
def SeqOp.event : SeqOp → Option Event
  | .drive pin l => some (.drive pin l)
  | .delay ms => some (.delay ms)
  | .setPState _ | .poll | .pollBounded _ | .wire _ _ | .fb _ | .finish _ | .finishIdle => none

/-- The events of a list of drives and delays, oldest first. -/
def eventsOf (l : List SeqOp) : List Event := l.filterMap SeqOp.event

end Sys2Proof.Machine
end

