-- ==== Sys2Proof/Safety.lean ====
section
/-! DEFINITION. The terms claims are made in: quiet states, pixels, what an operation may leave changed, and the invariants of the block. -/

namespace Sys2Proof.Safety

open Sys2Proof.Machine

/-- Nothing is going to arrive from the host or the reset input: an operation that starts here runs undisturbed. -/
def Quiet (s : State) : Prop := s.host = []

/-- Nothing runs: the position of the sequencer is empty. -/
def Idle (s : State) : Prop := s.seq = []

/-- This input lands now, and these are still to arrive after it: an input lands when it is due, and at once when nothing runs
(log entry 4). -/
def Lands (s : State) (input : Input) (rest : List Arrival) : Prop :=
  ∃ gap, s.host = { gap := gap, input := input } :: rest ∧ (gap = 0 ∨ Idle s)

/-- `n` steps, stopping at the first fault or refusal. -/
def steps : Nat → State → Host.Outcome State Fault Refusal
  | 0, s => .next s
  | n + 1, s =>
    match step s with
    | .next t => steps n t
    | .fault r => .fault r
    | .refused r => .refused r

/-- The state `s` with an operation finished in it: ERR is the code and nothing runs (10_state.md R28, R29). -/
def done (s : State) (code : Err) : State := { s with err := code, busyOp := false, seq := [] }

/-- The state `s` with these events added to its transcript, oldest first, and the outputs at the levels they leave. -/
def emitted (s : State) (es : List Event) : State :=
  { s with
    trace := es.reverse ++ s.trace
    pins := es.foldl Pins.onEvent s.pins }

/-- These events, oldest first, are what the transcript of `t` has beyond that of `s`. -/
def Adds (s t : State) (es : List Event) : Prop := t.trace = es.reverse ++ s.trace

/-- From the sample that is `start` samples away on the panel reads busy `k` times and then not busy. -/
def BusyTimes (s : State) (start k : Nat) : Prop := (∀ j < k, s.busyAt (start + j) = true) ∧ s.busyAt (start + k) = false

/-- The pixel at logical coordinates (X, Y) (20_memory.md R54). -/
def pixel (s : State) (X Y : Int) : Bool := (s.fbByte (pageOf Y) X).getLsbD (bitPosOf Y)

/-- (X, Y) lies in the half-open rectangle [x, x+w) × [y, y+h). -/
def inRect (x y : Int) (w h : Nat) (X Y : Int) : Bool := x ≤ X && X < x + w && y ≤ Y && Y < y + h

/-- The two states hold the same byte in every cell of the frame buffer. -/
def SameFb (s t : State) : Prop := ∀ p c : Int, inFB p c = true → t.fbByte p c = s.fbByte p c

/-- The last level a pin was driven to in a transcript, newest event first. -/
def lastDriven (pin : Pin) : List Event → Option Level
  | [] => none
  | .drive q l :: es => if q = pin then some l else lastDriven pin es
  | .delay _ :: es => lastDriven pin es
  | .sample _ :: es => lastDriven pin es

/-- The level a pin is left at when the operation `l` finishes, from level `cur`; a wire command leaves CS inactive
and does not drive RES. -/
def leftLevel (cfg : Params) (pin : Pin) : List SeqOp → Level → Level
  | [], cur => cur
  | .drive q l :: r, cur => leftLevel cfg pin r (if q = pin then l else cur)
  | .wire _ _ :: r, cur => leftLevel cfg pin r (if pin = .cs then !cfg.csActiveLevel else cur)
  | .finish _ :: _, cur => cur
  | .finishIdle :: _, cur => cur
  | .pollBounded _ :: _, cur => cur
  | .delay _ :: r, cur => leftLevel cfg pin r cur
  | .setPState _ :: r, cur => leftLevel cfg pin r cur
  | .poll :: r, cur => leftLevel cfg pin r cur
  | .fb _ :: r, cur => leftLevel cfg pin r cur

/-- The operation `l`, started with PSTATE = p, finishes, and leaves PSTATE at UNINIT or IDLE. -/
def settles : List SeqOp → PState → Bool
  | [], _ => false
  | .finish _ :: _, p => p.resting
  | .finishIdle :: _, _ => true
  | .pollBounded _ :: _, p => p.resting
  | .setPState q :: r, _ => settles r q
  | .drive _ _ :: r, p => settles r p
  | .delay _ :: r, p => settles r p
  | .poll :: r, p => settles r p
  | .wire _ _ :: r, p => settles r p
  | .fb _ :: r, p => settles r p

/-! ### What the spec's pseudocode puts on the wire, written out event by event -/

/-- ShiftByte(v): 8 bit cells of three drives, bit 7 first (41_serial_bus.md R130). -/
def cells (v : Byte) : List Event :=
  [.drive .sclk false, .drive .sda (v.getLsbD 7), .drive .sclk true,
    .drive .sclk false, .drive .sda (v.getLsbD 6), .drive .sclk true,
    .drive .sclk false, .drive .sda (v.getLsbD 5), .drive .sclk true,
    .drive .sclk false, .drive .sda (v.getLsbD 4), .drive .sclk true,
    .drive .sclk false, .drive .sda (v.getLsbD 3), .drive .sclk true,
    .drive .sclk false, .drive .sda (v.getLsbD 2), .drive .sclk true,
    .drive .sclk false, .drive .sda (v.getLsbD 1), .drive .sclk true,
    .drive .sclk false, .drive .sda (v.getLsbD 0), .drive .sclk true]

/-- SetDC(kind) (10_state.md R34). -/
def setDc (cfg : Params) : Kind → Event
  | .cmd => .drive .dc cfg.dcCmdLevel
  | .data => .drive .dc (!cfg.dcCmdLevel)

/-- Frame(kind, bs): Assert(CS), SetDC(kind), the cells, Deassert(CS) (41_serial_bus.md R131). -/
def frameEvents (cfg : Params) (kind : Kind) (bs : List Byte) : List Event :=
  .drive .cs cfg.csActiveLevel :: setDc cfg kind :: (bs.flatMap cells ++ [.drive .cs (!cfg.csActiveLevel)])

/-- SendPayload(bs): nothing, one frame of n bytes, or n frames of one byte (41_serial_bus.md R132). -/
def payloadEvents (cfg : Params) (bs : List Byte) : List Event :=
  match cfg.dataFraming, bs with
  | _, [] => []
  | .perPayload, b :: r => frameEvents cfg .data (b :: r)
  | .perByte, b :: r => (b :: r).flatMap fun v => frameEvents cfg .data [v]

/-- Emit(op, P) (43_wire_commands.md). -/
def commandEvents (cfg : Params) (op : Byte) (p : List Byte) : List Event := frameEvents cfg .cmd [op] ++ payloadEvents cfg p

/-- SEND op, P from a host: the command frame, then the payload, if there is one, in one frame (30_encoding.md R85, 43_wire_commands.md). -/
def hostCommandEvents (cfg : Params) (op : Byte) (p : List Byte) : List Event :=
  frameEvents cfg .cmd [op] ++ if p = [] then [] else frameEvents cfg .data p

/-- A WaitBusy whose first sample reads not-busy (41_serial_bus.md R135). -/
def waitEvents (cfg : Params) : List Event := [.sample false, .delay cfg.tSettleMs]

/-- ResetPulse() (42_panel_controller.md R161). -/
def resetPulseEvents (cfg : Params) : List Event :=
  [.drive .res (!cfg.resActiveLevel), .delay cfg.tRstPreMs, .drive .res cfg.resActiveLevel, .delay cfg.tRstActiveMs,
    .drive .res (!cfg.resActiveLevel), .delay cfg.tRstPostMs]

/-- INIT's configuration commands and RAM fill, the events between its second and its third wait (42_panel_controller.md R163, R164). -/
def configEvents (cfg : Params) : List Event :=
  commandEvents cfg 0x01#8 cfg.drvOut.toList ++ commandEvents cfg 0x11#8 cfg.dataEntry.toList
    ++ commandEvents cfg 0x44#8 cfg.winX.toList ++ commandEvents cfg 0x45#8 cfg.winY.toList
    ++ commandEvents cfg 0x3C#8 cfg.border.toList ++ commandEvents cfg 0x2C#8 cfg.vcom.toList
    ++ commandEvents cfg 0x03#8 cfg.gateV.toList ++ commandEvents cfg 0x04#8 cfg.sourceV.toList
    ++ commandEvents cfg 0x24#8 (List.replicate cfg.initFillCount cfg.initFill)

/-- INIT's events when every first sample of a wait reads not-busy (42_panel_controller.md R162). -/
def initEvents (cfg : Params) : List Event :=
  resetPulseEvents cfg ++ waitEvents cfg ++ commandEvents cfg 0x12#8 [] ++ waitEvents cfg ++ configEvents cfg ++ waitEvents cfg

/-- UPDATE's events before its wait, `fb` being the bytes streamed (42_panel_controller.md R166, R168, R170). -/
def updateEvents (cfg : Params) (fb : List Byte) : List Event :=
  commandEvents cfg 0x44#8 cfg.winX.toList ++ commandEvents cfg 0x45#8 cfg.winY.toList
    ++ (if cfg.updateSetCounters then commandEvents cfg 0x4E#8 cfg.cntX.toList ++ commandEvents cfg 0x4F#8 cfg.cntY.toList
        else [])
    ++ commandEvents cfg 0x24#8 fb ++ commandEvents cfg 0x22#8 [cfg.updMode] ++ commandEvents cfg 0x20#8 []

/-- The frame buffer page by page, column by column: FB[0][0], …, FB[0][247], FB[1][0], …, FB[15][247] (20_memory.md R58). -/
def pageMajor (s : State) : List Byte :=
  (List.range 16).flatMap fun (p : Nat) => (List.range 248).map fun (c : Nat) => s.fbByte p c

/-- A command byte and its payload in the byte-level view (41_serial_bus.md R137). -/
def commandItems (op : Byte) (p : List Byte) : List Item := .byte .cmd op :: p.map (.byte .data)

/-- WaitBusy in the byte-level view, its first sample not busy. -/
def waitItems (cfg : Params) : List Item := [.sample false, .delay cfg.tSettleMs]

/-- A WaitBusy that samples busy `k` times and then not busy (41_serial_bus.md R135). -/
def busyWaitEvents (cfg : Params) (k : Nat) : List Event := List.replicate k (.sample true) ++ waitEvents cfg

/-- The same in the byte-level view. -/
def busyWaitItems (cfg : Params) (k : Nat) : List Item := List.replicate k (.sample true) ++ waitItems cfg

/-! ### Decode, descriptor in hand -/

/-- The zero bits of an OP value: the mask column of 30_encoding.md R73 less the OP field. -/
def zeroBitsOfOp : Nat → Desc
  | 0x1 | 0x3 | 0x8 | 0x9 | 0xA => 0xFFFFFFFFFFFFFFF0#64
  | 0x2 | 0x4 | 0x5 => 0xFF000000000000F0#64
  | 0x6 => 0xFFFFFFFFFFFF00F0#64
  | 0x7 | 0xC => 0xFFFFFFFFFF0000F0#64
  | 0xB => 0xFFFFFF00000000F0#64
  | _ => 0#64

/-- L(op, desc) (30_encoding.md R75). -/
def streamLengthOfDesc (d : Desc) : Nat :=
  if d.toNat % 16 = 5 then (d.toNat / 2 ^ 48 % 256 + 7) / 8 * (d.toNat / 2 ^ 40 % 256)
  else if d.toNat % 16 = 7 then d.toNat / 2 ^ 8 % 65536
  else 0

/-- decode(desc, stream) of 30_encoding.md R77 in its own order: the error it raises, none where the issue is accepted. -/
def rejection (cfg : Params) (p : PState) (d : Desc) (st : List Byte) : Option Err :=
  let op := d.toNat % 16
  let n := d.toNat / 2 ^ 8 % 65536
  if op = 0x0 ∨ op = 0xD ∨ op = 0xE ∨ op = 0xF ∨ (op = 0xC ∧ cfg.hasBoundedWait = false) then some .eillop
  else if d &&& zeroBitsOfOp op ≠ 0#64 then some .eillop
  else if (op = 0x7 ∧ n = 0) ∨ (op = 0xC ∧ n = 0) then some .earg
  else if st.length ≠ streamLengthOfDesc d then some .earg
  else if op = 0xA ∧ p ≠ .idle then some .eseq
  else none

/-- The match and mask columns of spec/opcode_table.json, host rows. -/
def hostRows : List (Desc × Desc) :=
  [(0x1#64, 0xFFFFFFFFFFFFFFFF#64), (0x2#64, 0xFF000000000000FF#64), (0x3#64, 0xFFFFFFFFFFFFFFFF#64),
    (0x4#64, 0xFF000000000000FF#64), (0x5#64, 0xFF000000000000FF#64), (0x6#64, 0xFFFFFFFFFFFF00FF#64),
    (0x7#64, 0xFFFFFFFFFF0000FF#64), (0x8#64, 0xFFFFFFFFFFFFFFFF#64), (0x9#64, 0xFFFFFFFFFFFFFFFF#64),
    (0xA#64, 0xFFFFFFFFFFFFFFFF#64), (0xB#64, 0xFFFFFF00000000FF#64), (0xC#64, 0xFFFFFFFFFF0000FF#64)]

/-! ### Invariants -/

/-- The frame buffer is in canonical form: rising, and no cell outside the window (20_memory.md R52, 40_framebuffer.md R111). -/
def FbInv (s : State) : Prop := Memory.wf s.fb = true

/-- BUSYOP is 1 exactly while an operation runs, and PSTATE is UNINIT or IDLE when none does (10_state.md R25, R29). -/
def RunInv (s : State) : Prop :=
  (s.seq = [] ∧ s.busyOp = false ∧ s.pstate.resting = true) ∨
    (s.seq ≠ [] ∧ s.busyOp = true ∧ settles s.seq s.pstate = true)

/-- Each output is at the level it was last driven to (10_state.md R33). -/
def PinInv (s : State) : Prop := ∀ pin : Pin, lastDriven pin s.trace = some (s.pins.level pin)

/-- When the running operation is over, CS and RES are inactive; so they are whenever nothing runs (10_state.md R35,
R38). -/
def RestInv (s : State) : Prop :=
  leftLevel s.cfg .cs s.seq s.pins.cs = (!s.cfg.csActiveLevel) ∧ leftLevel s.cfg .res s.seq s.pins.res = (!s.cfg.resActiveLevel)

end Sys2Proof.Safety
end

