-- ==== Sys2Proof/Certificates/Slice0/Obligations.lean ====
section
/-! DEFINITION. The statements for the provers. -/

open Sys2Proof Sys2Proof.Machine Sys2Proof.Safety

/-! ### Encoding -/

/-- Descriptors and command bytes written out from the encoding examples of 30_encoding.md and the opcode table decode to what they
stand for, and reserved ones are refused. -/
def Obligations.SpecWordsDecode : Prop :=
  decode true (.host 0x0000000000000001#64 []) = .ok (.clear []) ∧
  decode true (.host 0x0080F80000000002#64 []) = .ok (.clearArea 0#16 0#16 248#8 128#8 []) ∧
  decode true (.host 0x000404007EFFFE04#64 []) = .ok (.reverseArea (BitVec.ofInt 16 (-2)) 126#16 4#8 4#8 []) ∧
  decode true (.host 0x0000000000001206#64 []) = .ok (.wrCmd 0x12#8 []) ∧
  decode true (.host 0x0000000000000207#64 [0xA5#8, 0x5A#8]) = .ok (.wrData 2#16 [0xA5#8, 0x5A#8]) ∧
  decode true (.host 0x000000000000000A#64 []) = .ok (.update []) ∧
  decode true (.host 0x000000000E00030B#64 []) = .ok (.readFb 3#16 14#16 []) ∧
  decode true (.host 0x000000000000640C#64 []) = .ok (.waitBusyB 100#16 []) ∧
  decode false (.host 0x000000000000640C#64 []) = .error .reservedOp ∧
  decode true (.host 0x0000000000000000#64 []) = .error .reservedOp ∧
  decode true (.host 0x0000000000000011#64 []) = .error .reservedBits ∧
  decode true (.host 0x0100000000000002#64 []) = .error .reservedBits ∧
  decode true (.wire 0x12#8 []) = .ok (.swReset []) ∧
  decode true (.wire 0x01#8 [1#8, 2#8, 3#8]) = .ok (.drvOut [1#8, 2#8, 3#8]) ∧
  decode true (.wire 0x01#8 [0x10#8]) = .ok (.cursorLengthAlt01 [0x10#8])

/-- Every well-formed instruction survives encoding and decoding, with every operand at every value its encoding admits. -/
def Obligations.DecodeInvertsEncode : Prop :=
  ∀ i : Instr, i.wf = true → decode true (encode i) = .ok i

/-- No decoded bit is dropped: what decodes to an instruction is that instruction's encoding, for either value of
HAS_BOUNDED_WAIT. -/
def Obligations.EncodeInvertsDecode : Prop :=
  ∀ (b : Bool) (im : Image) (i : Instr), decode b im = .ok i → encode i = im

/-- The host decoder accepts exactly the descriptors that match a host row of opcode_table.json under its mask. -/
def Obligations.HostTableRowsDecide : Prop :=
  ∀ (d : Desc) (st : List Byte),
    (∃ i, decode true (.host d st) = .ok i) ↔ ∃ row ∈ hostRows, d &&& row.2 = row.1

/-! ### Issues, decode errors, STATUS -/

/-- When nothing runs, an issue whose descriptor decodes is received (OVR <- 0) and the step runs the decoded instruction on the
state without that issue. -/
def Obligations.StepRunsIssuedOperation : Prop :=
  ∀ (s : State) (g : Nat) (d : Desc) (st : List Byte) (r : List Arrival) (i : Instr),
    Idle s → s.busyOp = false → s.host = { gap := g, input := .issue d st } :: r →
    decode s.cfg.hasBoundedWait (.host d st) = .ok i →
    step s = exec i { s with host := r, ovr := false }

/-- Where the running sequence stands at a wire command of the table and no input is due, the step runs that wire command with
the rest of the sequence after it. -/
def Obligations.StepRunsSequencedWireCommand : Prop :=
  ∀ (s : State) (op : Byte) (p : List Byte) (rest : List SeqOp) (i : Instr),
    s.seq = .wire op p :: rest → s.inputDue = false → decode s.cfg.hasBoundedWait (.wire op p) = .ok i →
    step s = exec i { s with seq := rest }

/-- With nothing running and nothing arriving the block waits: the step changes nothing. -/
def Obligations.IdleStepWaits : Prop :=
  ∀ s : State, Idle s → Quiet s → step s = .next s

/-- An issue that decode rejects, by the checks of R77 in their order, sets ERR to the code of the first check that fails. Nothing else
of the block changes: not FB, PSTATE or RESULT, no pin, no transcript event; BUSYOP stays 0 and nothing runs, so the block is ready for
the next issue. (OVR <- 0 is the receipt of the issue, R70, before decode.) -/
def Obligations.DecodeErrorOnlySetsErr : Prop :=
  ∀ (s : State) (g : Nat) (d : Desc) (st : List Byte) (r : List Arrival) (e : Err),
    Idle s → s.busyOp = false → s.host = { gap := g, input := .issue d st } :: r →
    rejection s.cfg s.pstate d st = some e →
    step s = .next { s with host := r, ovr := false, err := e }

/-- An issue that passes every check of R77 is accepted: when another input lands before its first micro-operation, BUSYOP reads 1, OVR 0, and the
operation is still ahead. Nothing else has changed (ERR keeps its previous value, no event has been emitted, FB, RESULT and the pins are as they
were) but PSTATE, which the acceptance of INIT sets to UNINIT and that of UPDATE to TRANSMITTING (R160; in the model together with the acceptance, log
entry 8). -/
def Obligations.AcceptedIssueSetsBusyop : Prop :=
  ∀ (s : State) (g : Nat) (d : Desc) (st : List Byte) (inp : Input) (r : List Arrival),
    Idle s → s.busyOp = false → s.host = { gap := g, input := .issue d st } :: { gap := 0, input := inp } :: r →
    rejection s.cfg s.pstate d st = none →
    ∃ t, step s = .next t ∧ t.seq ≠ [] ∧
      t = { s with
            host := { gap := 0, input := inp } :: r
            ovr := false
            busyOp := true
            seq := t.seq
            pstate := if d.toNat % 16 = 0x9 then .uninit else if d.toNat % 16 = 0xA then .transmitting else s.pstate }

/-- A host operation whose count is 0 (WRDATA, WAITBUSYB) or whose stream has not length L answers EARG, and WAITBUSYB answers EILLOP where
HAS_BOUNDED_WAIT is false, in every state and with nothing else changed but what Finish clears. -/
def Obligations.BadArgumentsAnswerAtOnce : Prop :=
  ∀ (s : State) (x y n : Half) (w h b : Byte) (st : List Byte),
    (st ≠ [] →
      exec (.clear st) s = .next (done s .earg) ∧ exec (.clearArea x y w h st) s = .next (done s .earg) ∧
      exec (.reverse st) s = .next (done s .earg) ∧ exec (.reverseArea x y w h st) s = .next (done s .earg) ∧
      exec (.wrCmd b st) s = .next (done s .earg) ∧ exec (.waitBusy st) s = .next (done s .earg) ∧
      exec (.init st) s = .next (done s .earg) ∧ exec (.update st) s = .next (done s .earg) ∧
      exec (.readFb x y st) s = .next (done s .earg)) ∧
    (st.length ≠ (h.toNat + 7) / 8 * w.toNat → exec (.plotImage x y w h st) s = .next (done s .earg)) ∧
    (n.toNat = 0 ∨ st.length ≠ n.toNat → exec (.wrData n st) s = .next (done s .earg)) ∧
    (s.cfg.hasBoundedWait = true → n.toNat = 0 ∨ st ≠ [] → exec (.waitBusyB n st) s = .next (done s .earg)) ∧
    (s.cfg.hasBoundedWait = false → exec (.waitBusyB n st) s = .next (done s .eillop))

/-- An issue made while BUSYOP = 1 is dropped: OVR <- 1 and nothing else of the block changes; ERR is not written, and the operation
goes on. -/
def Obligations.IssueWhileRunningIsDropped : Prop :=
  ∀ (s : State) (d : Desc) (st : List Byte) (r : List Arrival),
    s.busyOp = true → Lands s (.issue d st) r →
    step s = .next { s with host := r, ovr := true }

/-- OVR: set by an issue made while BUSYOP = 1, which is dropped and not executed; cleared by the next received issue, whether decode then
accepts or rejects it; left alone by a read of STATUS. -/
def Obligations.OvrSetByDropClearedByReceipt : Prop :=
  ∀ (s t : State) (inp : Input) (r : List Arrival),
    Lands s inp r → step s = .next t →
    (∀ d st, inp = .issue d st → s.busyOp = true → t = { s with host := r, ovr := true }) ∧
    (∀ d st, inp = .issue d st → s.busyOp = false → t.ovr = false) ∧
    (inp = .readStatus → t.ovr = s.ovr)

/-- ReadStatus returns STATUS and ReadResult returns RESULT, at any time, with no side effect; STATUS is PSTATE·32 + OVR·16 + BUSYOP·8 + ERR
with the codes of R25 and R28. -/
def Obligations.ReadsReturnRegisters : Prop :=
  ∀ (s : State) (r : List Arrival),
    (Lands s .readStatus r →
      step s = .next { s with host := r, replies := .status s.status :: s.replies }) ∧
    (Lands s .readResult r →
      step s = .next { s with host := r, replies := .result s.result :: s.replies }) ∧
    s.status.toNat =
      32 * (match s.pstate with
        | .uninit => 0 | .softReset => 1 | .configuring => 2 | .idle => 3 | .transmitting => 4 | .refreshing => 5 | .busyWait => 6)
      + 16 * s.ovr.toNat + 8 * s.busyOp.toNat
      + (match s.err with | .ok => 0 | .eillop => 1 | .earg => 2 | .eseq => 3 | .etimeout => 4)

/-! ### The frame-buffer family -/

/-- CLEAR completes: every byte of FB is 0x00, ERR is OK, and nothing else changes. -/
def Obligations.ClearCompletes : Prop :=
  ∀ s : State, Quiet s →
    ∃ t, exec (.clear []) s = .next t ∧ (∀ p c : Int, inFB p c = true → t.fbByte p c = 0x00#8) ∧
      t = { done s .ok with fb := t.fb }

/-- REVERSE completes: every byte of FB is XORed with 0xFF, ERR is OK, and nothing else changes. -/
def Obligations.ReverseCompletes : Prop :=
  ∀ s : State, Quiet s →
    ∃ t, exec (.reverse []) s = .next t ∧ (∀ p c : Int, inFB p c = true → t.fbByte p c = s.fbByte p c ^^^ 0xFF#8) ∧
      t = { done s .ok with fb := t.fb }

/-- CLEARAREA completes: every in-window pixel of the half-open rectangle is cleared, every other pixel of FB is as it was, and nothing
else changes. -/
def Obligations.ClearAreaCompletes : Prop :=
  ∀ (s : State) (x y : Half) (w h : Byte), Quiet s →
    ∃ t, exec (.clearArea x y w h []) s = .next t ∧
      (∀ X Y : Int, inPix X Y = true →
        pixel t X Y = (pixel s X Y && !inRect x.toInt y.toInt w.toNat h.toNat X Y)) ∧
      t = { done s .ok with fb := t.fb }

/-- REVERSEAREA completes: every in-window pixel of the half-open rectangle is inverted once, every other pixel of FB is as it was, and
nothing else changes. -/
def Obligations.ReverseAreaCompletes : Prop :=
  ∀ (s : State) (x y : Half) (w h : Byte), Quiet s →
    ∃ t, exec (.reverseArea x y w h []) s = .next t ∧
      (∀ X Y : Int, inPix X Y = true →
        pixel t X Y = (pixel s X Y ^^ inRect x.toInt y.toInt w.toNat h.toNat X Y)) ∧
      t = { done s .ok with fb := t.fb }

/-- PLOTIMAGE with a bitmap of S·w bytes completes. Bit b of FB[p][c] is then set exactly when it was set and its pixel is outside the
caller's rectangle, or when a set bit k of the byte of some strip j and column i lands on it: c = x + i, and the device row 8p + b is
deviceY − 8j + k (k ≤ 7 − shift) or deviceY − 8j − 16 + k (k ≥ 8 − shift), shift being deviceY's offset in its page. Nothing but FB and ERR
changes. -/
def Obligations.PlotImageCompletes : Prop :=
  ∀ (s : State) (x y : Half) (w h : Byte) (st : List Byte), Quiet s → st.length = (h.toNat + 7) / 8 * w.toNat →
    ∃ t, exec (.plotImage x y w h st) s = .next t ∧
      (∀ (p c : Int) (b : Nat), inFB p c = true → b < 8 →
        ((t.fbByte p c).getLsbD b = true ↔
          ((s.fbByte p c).getLsbD b = true ∧ inRect x.toInt y.toInt w.toNat h.toNat c (127 - (8 * p + b)) = false) ∨
          ∃ j i k : Nat, j < (h.toNat + 7) / 8 ∧ i < w.toNat ∧ k < 8 ∧ x.toInt + i = c ∧
            (st.getD (j * w.toNat + i) 0#8).getLsbD k = true ∧
            ((k + (deviceYOf y.toInt h.toNat).fmod 8 ≤ 7 ∧ 8 * p + b = deviceYOf y.toInt h.toNat - 8 * j + k) ∨
              (8 ≤ k + (deviceYOf y.toInt h.toNat).fmod 8 ∧ 8 * p + b = deviceYOf y.toInt h.toNat - 8 * j - 16 + k)))) ∧
      t = { done s .ok with fb := t.fb }

/-- PLOTIMAGE with deviceY < 0 writes no strip byte: the split gives page ≤ −1, so both writes of every strip are clipped, and the whole
operation answers what CLEARAREA of the same rectangle answers. The spec's example: FB all 0xFF, PLOTIMAGE 0, 121, 1, 8, [0xFF] leaves
FB[0][0] = 0x80. -/
def Obligations.PlotImageNegativeDeviceYOnlyClears : Prop :=
  (∀ (s : State) (x y : Half) (w h : Byte) (st : List Byte), Quiet s → st.length = (h.toNat + 7) / 8 * w.toNat →
    deviceYOf y.toInt h.toNat < 0 →
    (splitDeviceY (deviceYOf y.toInt h.toNat)).1 ≤ -1 ∧
      exec (.plotImage x y w h st) s = exec (.clearArea x y w h []) s) ∧
  (∀ s : State, Quiet s → (∀ p c : Int, inFB p c = true → s.fbByte p c = 0xFF#8) →
    deviceYOf 121 8 = -1 ∧ ∃ t, exec (.plotImage 0#16 121#16 1#8 8#8 [0xFF#8]) s = .next t ∧ t.fbByte 0 0 = 0x80#8)

/-- READFB completes: RESULT is the byte of the cell, 0x00 outside the window; ERR is OK and nothing else changes. -/
def Obligations.ReadFbCompletes : Prop :=
  ∀ (s : State) (col pg : Half), Quiet s →
    exec (.readFb col pg []) s =
      .next { done s .ok with
        result :=
          if 0 ≤ pg.toInt ∧ pg.toInt ≤ 15 ∧ 0 ≤ col.toInt ∧ col.toInt ≤ 247 then s.fbByte pg.toInt col.toInt else 0x00#8 }

/-- The pixel addresser is a bijection from the 248 × 128 logical pixels onto the bits of FB: every pixel has a cell in the window and a
bit position below 8, and every bit of every cell is exactly one pixel, logical row 127 − (8p + b). -/
def Obligations.AddresserIsBijective : Prop :=
  (∀ X Y : Int, inPix X Y = true → inFB (pageOf Y) X = true ∧ bitPosOf Y < 8) ∧
  (∀ (p c : Int) (b : Nat), inFB p c = true → b < 8 →
    ∀ X Y : Int, (inPix X Y = true ∧ pageOf Y = p ∧ X = c ∧ bitPosOf Y = b) ↔ (X = c ∧ Y = 127 - (8 * p + b)))

/-- The page/shift split: floor division for deviceY ≥ 0 and for a negative deviceY that is no multiple of 8, page one lower and shift 8
for a negative multiple of 8; and the spec's table of values. -/
def Obligations.PageShiftSplit : Prop :=
  (∀ d : Int, 0 ≤ d → splitDeviceY d = (d.fdiv 8, d.fmod 8)) ∧
  (∀ d : Int, d < 0 → d.fmod 8 ≠ 0 → splitDeviceY d = (d.fdiv 8, d.fmod 8) ∧ 1 ≤ d.fmod 8 ∧ d.fmod 8 ≤ 7) ∧
  (∀ d : Int, d < 0 → d.fmod 8 = 0 → splitDeviceY d = (d.fdiv 8 - 1, 8)) ∧
  splitDeviceY 0 = (0, 0) ∧ splitDeviceY (-1) = (-1, 7) ∧ splitDeviceY (-8) = (-2, 8) ∧ splitDeviceY (-9) = (-2, 7) ∧
  splitDeviceY 112 = (14, 0) ∧ splitDeviceY 119 = (14, 7)

/-- REVERSEAREA r twice, with the same operands, leaves FB unchanged for every rectangle r, and so does REVERSE twice. -/
def Obligations.ReverseTwiceRestores : Prop :=
  ∀ s : State, Quiet s →
    (∀ (x y : Half) (w h : Byte), ∃ t u, exec (.reverseArea x y w h []) s = .next t ∧
      exec (.reverseArea x y w h []) t = .next u ∧ SameFb s u) ∧
    (∃ t u, exec (.reverse []) s = .next t ∧ exec (.reverse []) t = .next u ∧ SameFb s u)

/-- CLEAR twice gives the same FB as CLEAR once, all 0x00; CLEARAREA r twice gives the same FB as CLEARAREA r once. -/
def Obligations.ClearIsIdempotent : Prop :=
  ∀ s : State, Quiet s →
    (∃ t u, exec (.clear []) s = .next t ∧ exec (.clear []) t = .next u ∧ SameFb t u ∧
      ∀ p c : Int, inFB p c = true → t.fbByte p c = 0x00#8) ∧
    (∀ (x y : Half) (w h : Byte), ∃ t u, exec (.clearArea x y w h []) s = .next t ∧
      exec (.clearArea x y w h []) t = .next u ∧ SameFb t u)

/-- Frame of the frame-buffer operations, in every state and whatever arrives meanwhile: CLEAR, CLEARAREA, REVERSE, REVERSEAREA and
PLOTIMAGE change at most FB, ERR, BUSYOP and the hidden position; READFB changes RESULT in place of FB. No event, no pin, no sample, PSTATE, OVR and the
parameters as they were. -/
def Obligations.FrameBufferFamilyFrame : Prop :=
  ∀ (s t : State) (x y : Half) (w h : Byte) (st : List Byte),
    (exec (.clear st) s = .next t ∨ exec (.clearArea x y w h st) s = .next t ∨ exec (.reverse st) s = .next t ∨
        exec (.reverseArea x y w h st) s = .next t ∨ exec (.plotImage x y w h st) s = .next t →
      t = { s with fb := t.fb, err := t.err, busyOp := t.busyOp, seq := t.seq, host := t.host }) ∧
    (exec (.readFb x y st) s = .next t →
      t = { s with result := t.result, err := t.err, busyOp := t.busyOp, seq := t.seq, host := t.host })

/-! ### The serial framer -/

/-- ShiftByte(v) emits exactly 24 Drive events, SCLK <- 0, SDA <- v[k], SCLK <- 1 for k = 7 down to 0, whatever the pins hold; it leaves
SCLK = 1 and SDA = v[0]; and a receiver that has CS active and no bit pending sees the byte v, most significant bit first. -/
def Obligations.ShiftByteEmitsEightCells : Prop :=
  ∀ v : Byte, eventsOf (shiftByte v) = cells v ∧ (cells v).length = 24 ∧
    (∀ p : Pins, (cells v).foldl Pins.onEvent p = { p with sclk := true, sda := v.getLsbD 0 }) ∧
    ∀ (cfg : Params) (r : Receiver), r.cs = cfg.csActiveLevel → r.bits = [] →
      byteView cfg r (cells v) = [.byte (kindOfLevel cfg r.dc) v]

/-- A frame of n bytes is Assert(CS), SetDC(kind), the cells of its bytes in order, Deassert(CS): 3 + 24n events, and every event between
the first and the last is SetDC, first, or a drive of SCLK or SDA. -/
def Obligations.FrameShape : Prop :=
  ∀ (cfg : Params) (kind : Kind) (bs : List Byte),
    eventsOf (frame cfg kind bs) = frameEvents cfg kind bs ∧
    (frameEvents cfg kind bs).length = 3 + 24 * bs.length ∧
    ∀ e ∈ bs.flatMap cells, ∃ l, e = .drive .sclk l ∨ e = .drive .sda l

/-- After any frame SCLK is left at 1, SDA at the last bit sent, DC at the kind of the frame and CS inactive; RES is not driven. So WRCMD and WRDATA
leave the pins, for the next operation to start from. -/
def Obligations.FrameLeavesPinLevels : Prop :=
  (∀ (cfg : Params) (kind : Kind) (bs : List Byte) (last : Byte) (p : Pins),
    (eventsOf (frame cfg kind (bs ++ [last]))).foldl Pins.onEvent p =
      { sclk := true, sda := last.getLsbD 0,
        dc := (match kind with | .cmd => cfg.dcCmdLevel | .data => !cfg.dcCmdLevel),
        cs := !cfg.csActiveLevel, res := p.res }) ∧
  (∀ (s : State) (b : Byte), Quiet s →
    ∃ t, exec (.wrCmd b []) s = .next t ∧
      t.pins = { sclk := true, sda := b.getLsbD 0, dc := s.cfg.dcCmdLevel, cs := !s.cfg.csActiveLevel, res := s.pins.res }) ∧
  (∀ (s : State) (n : Half) (bs : List Byte) (last : Byte), Quiet s → (bs ++ [last]).length = n.toNat →
    ∃ t, exec (.wrData n (bs ++ [last])) s = .next t ∧
      t.pins = { sclk := true, sda := last.getLsbD 0, dc := !s.cfg.dcCmdLevel, cs := !s.cfg.csActiveLevel, res := s.pins.res })

/-- The byte-level view of a frame is its bytes, in order, each tagged with the frame's kind, from whatever a receiver saw before. So the events that
WRCMD adds to the transcript are its byte, as a command, and those that WRDATA adds are its stream, as data. -/
def Obligations.FrameByteView : Prop :=
  (∀ (cfg : Params) (kind : Kind) (bs : List Byte) (r : Receiver),
    byteView cfg r (eventsOf (frame cfg kind bs)) = bs.map (.byte kind)) ∧
  (∀ (s : State) (b : Byte) (r : Receiver), Quiet s →
    ∃ t es, exec (.wrCmd b []) s = .next t ∧ Adds s t es ∧ byteView s.cfg r es = [.byte .cmd b]) ∧
  (∀ (s : State) (n : Half) (st : List Byte) (r : Receiver), Quiet s → n ≠ 0#16 → st.length = n.toNat →
    ∃ t es, exec (.wrData n st) s = .next t ∧ Adds s t es ∧ byteView s.cfg r es = st.map (.byte .data))

/-- Both values of DATA_FRAMING give the panel the same payload bytes, in the same order, all with DC at the data level: an empty payload
emits nothing. -/
def Obligations.PayloadFramingsAgree : Prop :=
  ∀ (cfg : Params) (framing : DataFraming) (bs : List Byte) (r : Receiver),
    eventsOf (sendPayload { cfg with dataFraming := framing } bs) = payloadEvents { cfg with dataFraming := framing } bs ∧
    byteView cfg r (payloadEvents { cfg with dataFraming := framing } bs) = bs.map (.byte .data)

/-- WRCMD completes, for every byte: one command frame is emitted, the pins are as it leaves them, ERR is OK, and nothing else
changes. -/
def Obligations.WrCmdCompletes : Prop :=
  ∀ (s : State) (b : Byte), Quiet s →
    exec (.wrCmd b []) s = .next (done (emitted s (frameEvents s.cfg .cmd [b])) .ok)

/-- WRDATA with N ≥ 1 stream bytes completes: the bytes are emitted as one data frame, whatever DATA_FRAMING says, ERR is OK, and nothing
else changes. -/
def Obligations.WrDataCompletes : Prop :=
  ∀ (s : State) (n : Half) (st : List Byte), Quiet s → n ≠ 0#16 → st.length = n.toNat →
    exec (.wrData n st) s = .next (done (emitted s (frameEvents s.cfg .data st)) .ok)

/-- WAITBUSY, when the panel reports not-busy at the first sample, completes with Sample(false) and Delay(T_SETTLE_MS), and ERR is OK. -/
def Obligations.WaitBusyCompletes : Prop :=
  ∀ s : State, Quiet s → s.busyAt 0 = false →
    exec (.waitBusy []) s =
      .next (done { emitted s (waitEvents s.cfg) with busyIn := s.busyIn.tail, samples := s.samples + 1 } .ok)

/-- WAITBUSY, when the panel reads busy k times and then not busy, finishes k steps later: its transcript is k times Sample(true), then
Sample(false) and Delay(T_SETTLE_MS), and ERR is OK. -/
def Obligations.WaitBusyEndsAtFirstNotBusy : Prop :=
  ∀ (s : State) (k : Nat), Quiet s → (∀ j < k, s.busyAt j = true) → s.busyAt k = false →
    ∃ t, exec (.waitBusy []) s = .next t ∧
      steps k t =
        .next (done
          { emitted s (List.replicate k (.sample true) ++ waitEvents s.cfg) with
            busyIn := s.busyIn.drop (k + 1), samples := s.samples + (k + 1) } .ok)

/-- WAITBUSY under a panel that stays busy never finishes: after any number n of further steps the transcript has n + 1 events Sample(true)
and no other, BUSYOP is 1, the operation stands at its poll loop, and nothing else has changed. -/
def Obligations.WaitBusyHangsWhileBusy : Prop :=
  ∀ (s : State) (n : Nat), Quiet s → (∀ j ≤ n, s.busyAt j = true) →
    ∃ t, exec (.waitBusy []) s = .next t ∧
      steps n t =
        .next
          { s with
            trace := List.replicate (n + 1) (.sample true) ++ s.trace
            busyIn := s.busyIn.drop (n + 1)
            samples := s.samples + (n + 1)
            busyOp := true
            seq := [.poll, .delay s.cfg.tSettleMs, .finish .ok] }

/-- WAITBUSYB with limit n ≥ 1 always completes: with OK at the first not-busy sample among n, then Delay(T_SETTLE_MS); with ETIMEOUT and no
delay after n busy samples. Nothing else of the block changes; the samples stay in the transcript. -/
def Obligations.WaitBusyBCompletes : Prop :=
  ∀ (s : State) (limit : Half), Quiet s → s.cfg.hasBoundedWait = true → limit ≠ 0#16 →
    (∀ k < limit.toNat, (∀ j < k, s.busyAt j = true) → s.busyAt k = false →
      exec (.waitBusyB limit []) s =
        .next (done
          { emitted s (List.replicate k (.sample true) ++ waitEvents s.cfg) with
            busyIn := s.busyIn.drop (k + 1), samples := s.samples + (k + 1) } .ok)) ∧
    ((∀ j < limit.toNat, s.busyAt j = true) →
      exec (.waitBusyB limit []) s =
        .next (done
          { emitted s (List.replicate limit.toNat (.sample true)) with
            busyIn := s.busyIn.drop limit.toNat, samples := s.samples + limit.toNat } .etimeout))

/-- Frame of the framer's host operations, in every state and whatever arrives meanwhile: WRCMD and WRDATA change at most the transcript, the
pins, ERR, BUSYOP and the hidden position; WAITBUSY and WAITBUSYB the transcript, what has been sampled, ERR, BUSYOP and the hidden position. FB, every
byte of it, PSTATE, OVR, RESULT and the parameters stay, and the waits drive no pin. -/
def Obligations.FramerFrame : Prop :=
  ∀ (s t : State) (b : Byte) (n : Half) (st : List Byte),
    (exec (.wrCmd b st) s = .next t ∨ exec (.wrData n st) s = .next t →
      t = { s with trace := t.trace, pins := t.pins, err := t.err, busyOp := t.busyOp, seq := t.seq, host := t.host }) ∧
    (exec (.waitBusy st) s = .next t ∨ exec (.waitBusyB n st) s = .next t →
      t = { s with trace := t.trace, busyIn := t.busyIn, samples := t.samples, err := t.err, busyOp := t.busyOp, seq := t.seq,
                   host := t.host })

/-! ### The panel sequencer -/

/-- INIT, from every PSTATE, when each of its three waits samples not busy at once, completes: the events of R162 in order, PSTATE = IDLE,
ERR = OK, and FB and everything else unchanged. -/
def Obligations.InitCompletes : Prop :=
  ∀ s : State, Quiet s → s.busyAt 0 = false → s.busyAt 1 = false → s.busyAt 2 = false →
    exec (.init []) s =
      .next (done
        { emitted s (initEvents s.cfg) with
          pstate := .idle, busyIn := s.busyIn.drop 3, samples := s.samples + 3 } .ok)

/-- The byte-level transcript of INIT when every WaitBusy returns, the first after k₀ busy samples, the second after k₁, the third after k₂, for every
value of the parameters: what exec and the steps that follow its busy samples add to the transcript is the reset pulse, the software reset between two
waits, the eight configuration commands, the RAM fill and the last wait. It contains no command byte 0x22 and no command byte 0x20. -/
def Obligations.InitByteView : Prop :=
  ∀ (s : State) (k₀ k₁ k₂ : Nat) (r : Receiver), Quiet s →
    BusyTimes s 0 k₀ → BusyTimes s (k₀ + 1) k₁ → BusyTimes s (k₀ + 1 + k₁ + 1) k₂ →
    ∃ t u es, exec (.init []) s = .next t ∧ steps (k₀ + k₁ + k₂) t = .next u ∧ u.busyOp = false ∧ Adds s u es ∧
      byteView s.cfg r es =
        [.res (!s.cfg.resActiveLevel), .delay s.cfg.tRstPreMs, .res s.cfg.resActiveLevel, .delay s.cfg.tRstActiveMs,
          .res (!s.cfg.resActiveLevel), .delay s.cfg.tRstPostMs]
        ++ busyWaitItems s.cfg k₀ ++ commandItems 0x12#8 [] ++ busyWaitItems s.cfg k₁
        ++ commandItems 0x01#8 s.cfg.drvOut.toList ++ commandItems 0x11#8 s.cfg.dataEntry.toList
        ++ commandItems 0x44#8 s.cfg.winX.toList ++ commandItems 0x45#8 s.cfg.winY.toList
        ++ commandItems 0x3C#8 s.cfg.border.toList ++ commandItems 0x2C#8 s.cfg.vcom.toList
        ++ commandItems 0x03#8 s.cfg.gateV.toList ++ commandItems 0x04#8 s.cfg.sourceV.toList
        ++ commandItems 0x24#8 (List.replicate s.cfg.initFillCount s.cfg.initFill) ++ busyWaitItems s.cfg k₂ ∧
      .byte .cmd 0x22#8 ∉ byteView s.cfg r es ∧ .byte .cmd 0x20#8 ∉ byteView s.cfg r es

/-- INIT under a panel that is busy at its first sample: the reset pulse and one Sample(true) have been emitted, PSTATE is SOFTRESET, BUSYOP is 1,
STATUS reads SOFTRESET, BUSYOP and the previous ERR, and after n more busy samples the operation still stands at that wait, with nothing but
Sample(true) added. -/
def Obligations.InitHangsInSoftReset : Prop :=
  ∀ (s : State) (n : Nat), Quiet s → (∀ j ≤ n, s.busyAt j = true) →
    ∃ t u, exec (.init []) s = .next t ∧ steps n t = .next u ∧
      u = { emitted s (resetPulseEvents s.cfg ++ List.replicate (n + 1) (.sample true)) with
            pstate := .softReset, busyOp := true, seq := u.seq, busyIn := u.busyIn, samples := u.samples } ∧
      u.seq.head? = some .poll

/-- UPDATE in IDLE, when its wait samples not busy at once, completes: the events of R166 in order, the stream being FB at acceptance, page by
page and column by column, each byte as stored; PSTATE = IDLE, ERR = OK, FB and everything else unchanged. -/
def Obligations.UpdateCompletes : Prop :=
  ∀ s : State, Quiet s → s.pstate = .idle → s.busyAt 0 = false →
    exec (.update []) s =
      .next (done
        { emitted s (updateEvents s.cfg (pageMajor s) ++ waitEvents s.cfg) with
          busyIn := s.busyIn.tail, samples := s.samples + 1 } .ok)

/-- The byte-level transcript of UPDATE when its WaitBusy returns, after k busy samples: what exec and the k steps after it add to the transcript is
0x44 with 2 bytes, 0x45 with 4, with UPDATE_SET_COUNTERS also 0x4E with 1 and 0x4F with 2, exactly one 0x24 followed by 3968 data bytes, FB in page-major
order, 0x22 with 1 byte, 0x20, and one WaitBusy; between the first and the last byte of the stream there is no command byte. -/
def Obligations.UpdateByteView : Prop :=
  ∀ (s : State) (k : Nat) (r : Receiver), Quiet s → s.pstate = .idle → BusyTimes s 0 k →
    ∃ t u es, exec (.update []) s = .next t ∧ steps k t = .next u ∧ u.busyOp = false ∧ Adds s u es ∧
      byteView s.cfg r es =
        commandItems 0x44#8 s.cfg.winX.toList ++ commandItems 0x45#8 s.cfg.winY.toList
        ++ (if s.cfg.updateSetCounters then commandItems 0x4E#8 s.cfg.cntX.toList ++ commandItems 0x4F#8 s.cfg.cntY.toList else [])
        ++ commandItems 0x24#8 (pageMajor s) ++ commandItems 0x22#8 [s.cfg.updMode] ++ commandItems 0x20#8 []
        ++ busyWaitItems s.cfg k ∧
      (pageMajor s).length = 3968

/-- UPDATE under a busy panel: the whole stream and the refresh commands have been emitted, then one Sample(true); PSTATE is BUSYWAIT and BUSYOP is
1, and after n more busy samples the operation still stands at that wait, with nothing but Sample(true) added. -/
def Obligations.UpdateHangsInBusyWait : Prop :=
  ∀ (s : State) (n : Nat), Quiet s → s.pstate = .idle → (∀ j ≤ n, s.busyAt j = true) →
    ∃ t u, exec (.update []) s = .next t ∧ steps n t = .next u ∧
      u = { emitted s (updateEvents s.cfg (pageMajor s) ++ List.replicate (n + 1) (.sample true)) with
            pstate := .busyWait, busyOp := true, seq := u.seq, busyIn := u.busyIn, samples := u.samples } ∧
      u.seq = [.poll, .delay s.cfg.tSettleMs, .finishIdle]

/-- An UPDATE received while PSTATE ≠ IDLE is rejected with ESEQ: nothing is emitted and nothing else changes. (OVR <- 0 is the receipt of the
issue, before decode.) -/
def Obligations.UpdateOutsideIdleIsEseq : Prop :=
  ∀ (s : State) (g : Nat) (r : List Arrival),
    Idle s → s.busyOp = false → s.pstate ≠ .idle →
    s.host = { gap := g, input := .issue 0x000000000000000A#64 [] } :: r →
    step s = .next { s with host := r, ovr := false, err := .eseq }

/-- Frame of INIT and UPDATE, in every state and whatever arrives meanwhile: FB, every byte of it, OVR, RESULT, the parameters and the replies to the
host are unchanged. -/
def Obligations.SequencerFrame : Prop :=
  ∀ (s t : State) (st : List Byte),
    exec (.init st) s = .next t ∨ exec (.update st) s = .next t →
    t = { s with pstate := t.pstate, trace := t.trace, pins := t.pins, busyIn := t.busyIn, samples := t.samples, err := t.err,
                 busyOp := t.busyOp, seq := t.seq, host := t.host }

/-- Between operations, an input that lands and is neither a reset nor an issue of INIT (OP 0x9) or UPDATE (OP 0xA) leaves PSTATE
alone. -/
def Obligations.OnlyInitUpdateResetWritePState : Prop :=
  ∀ (s t : State) (g : Nat) (inp : Input) (r : List Arrival),
    Idle s → s.host = { gap := g, input := inp } :: r → inp ≠ .blockReset →
    (∀ d st, inp = .issue d st → d.toNat % 16 ≠ 0x9 ∧ d.toNat % 16 ≠ 0xA) →
    step s = .next t → t.pstate = s.pstate

/-! ### The wire commands -/

/-- Each of the seventeen wire commands completes, with every payload, where no other operation is under way, and changes nothing but the transcript and
the pins. The fourteen that INIT or UPDATE sends are a command frame, then the payload as DATA_FRAMING says; the three that only a host sends are a
command frame, then the payload in one frame, whatever DATA_FRAMING says: 5406 events for the 224 bytes of the LUT. -/
def Obligations.WireCommandsComplete : Prop :=
  (∀ (s : State) (p : List Byte), Quiet s → Idle s →
    (∀ c ∈ [(Instr.swReset p, 0x12#8), (.drvOut p, 0x01#8), (.dataEntry p, 0x11#8), (.ramXWindow p, 0x44#8),
      (.ramYWindow p, 0x45#8), (.borderWaveform p, 0x3C#8), (.vcom p, 0x2C#8), (.gateVoltage p, 0x03#8),
      (.sourceVoltage p, 0x04#8), (.writeRamBw p, 0x24#8), (.updateControl p, 0x22#8), (.activateUpdate p, 0x20#8),
      (.ramXCounter p, 0x4E#8), (.ramYCounter p, 0x4F#8)],
      exec c.1 s = .next (emitted s (commandEvents s.cfg c.2 p))) ∧
    (∀ c ∈ [(Instr.lutWrite p, 0x32#8), (.cursorColStart p, 0x0F#8), (.cursorLengthAlt01 p, 0x01#8)],
      exec c.1 s = .next (emitted s (hostCommandEvents s.cfg c.2 p)))) ∧
  ∀ (cfg : Params) (p : List Byte), p.length = 224 → (hostCommandEvents cfg 0x32#8 p).length = 5406

/-- A wire command, whatever its payload and whatever arrives meanwhile, changes no state of the block other than the pin levels: FB, PSTATE, STATUS,
RESULT and the parameters are unchanged and no error is raised; only the transcript, the pins and the position in its own frames move. It is said of
exec of a wire command where nothing else is under way, which is the model's own case (log entries 9 and 21). -/
def Obligations.WireCommandsChangeOnlyPins : Prop :=
  ∀ (s t : State) (i : Instr) (b : Bool) (op : Byte) (p : List Byte),
    Idle s → decode b (.wire op p) = .ok i → exec i s = .next t →
    t = { s with trace := t.trace, pins := t.pins, seq := t.seq, host := t.host } ∧ t.status = s.status

/-- SEND op, P assembles to WRCMD op, followed by WRDATA P when P is not empty, and issuing those from a quiet state puts on the wire the command
byte op and the data bytes P; exec of the wire command that op and P are, where the table lists one, puts the same bytes there. -/
def Obligations.SendEqualsWireCommand : Prop :=
  ∀ (s : State) (op b : Byte) (p : List Byte), Quiet s → (b :: p).length ≤ 65535 →
    assemble (.send op.toNat []) = some [encode (.wrCmd op [])] ∧
    assemble (.send op.toNat ((b :: p).map fun v => (v.toNat : Int))) =
      some [encode (.wrCmd op []), encode (.wrData (BitVec.ofNat 16 (b :: p).length) (b :: p))] ∧
    (∃ t es, exec (.wrCmd op []) s = .next t ∧ t = done (emitted s es) .ok ∧
      byteView s.cfg (.ofPins s.pins) es = commandItems op []) ∧
    (∃ t u es, exec (.wrCmd op []) s = .next t ∧ exec (.wrData (BitVec.ofNat 16 (b :: p).length) (b :: p)) t = .next u ∧
      u = done (emitted s es) .ok ∧ byteView s.cfg (.ofPins s.pins) es = commandItems op (b :: p)) ∧
    (Idle s → ∀ (hb : Bool) (i : Instr) (payload : List Byte), decode hb (.wire op payload) = .ok i →
      ∃ es, exec i s = .next (emitted s es) ∧ byteView s.cfg (.ofPins s.pins) es = commandItems op payload)

/-! ### The whole machine -/

/-- Every step answers a next state: the block raises no trap and nothing stops it. That the model needs no fault is its deduction from R228 and R229
(log entry 13). -/
def Obligations.EveryStepAnswersNext : Prop := ∀ s : State, ∃ t, step s = .next t

/-- Every step keeps the frame buffer in canonical form, with no cell outside pages 0 to 15 and columns 0 to 247. -/
def Obligations.StepKeepsFrameBufferForm : Prop :=
  ∀ s t : State, FbInv s → step s = .next t → FbInv t

/-- Every step keeps: BUSYOP is 1 exactly while an operation runs, and PSTATE is UNINIT or IDLE when none does. -/
def Obligations.StepKeepsRestingPState : Prop :=
  ∀ s t : State, RunInv s → step s = .next t → RunInv t

/-- Every step keeps: each output holds the level it was last driven to. -/
def Obligations.StepKeepsPinsAtLastDrive : Prop :=
  ∀ s t : State, PinInv s → step s = .next t → PinInv t

/-- Every step keeps: CS and RES are inactive whenever no operation runs, since every running operation leaves them so. -/
def Obligations.StepKeepsPanelDeselectedAtRest : Prop :=
  ∀ s t : State, RunInv s → RestInv s → step s = .next t → RestInv t

/-- The four invariants hold at reset. -/
def Obligations.InvariantsHoldAtReset : Prop :=
  FbInv State.reset ∧ RunInv State.reset ∧ PinInv State.reset ∧ RestInv State.reset

/-- No step changes a parameter. -/
def Obligations.ParametersNeverChange : Prop :=
  ∀ s t : State, step s = .next t → t.cfg = s.cfg

/-- The transcript only grows: no step takes back or reorders an event. -/
def Obligations.TranscriptOnlyGrows : Prop :=
  ∀ s t : State, step s = .next t → ∃ es, t.trace = es ++ s.trace

/-- Block reset takes effect at once, whatever the block is doing: the running operation is gone, PSTATE is UNINIT, ERR OK, BUSYOP, OVR and RESULT 0, the
five outputs are driven SCLK 0, SDA 0, DC data, CS inactive, RES inactive in that order, the parameters are unchanged, and every cell of FB holds the fresh
draw of this reset (its value is free). -/
def Obligations.BlockResetEffect : Prop :=
  ∀ (s : State) (r : List Arrival), Lands s .blockReset r →
    ∃ t, step s = .next t ∧
      t.seq = [] ∧ t.pstate = .uninit ∧ t.err = .ok ∧ t.busyOp = false ∧ t.ovr = false ∧ t.result = 0x00#8 ∧ t.cfg = s.cfg ∧
      t.trace.reverse = s.trace.reverse ++ [.drive .sclk false, .drive .sda false, .drive .dc (!s.cfg.dcCmdLevel),
        .drive .cs (!s.cfg.csActiveLevel), .drive .res (!s.cfg.resActiveLevel)] ∧
      t.pins = { sclk := false, sda := false, dc := !s.cfg.dcCmdLevel, cs := !s.cfg.csActiveLevel, res := !s.cfg.resActiveLevel } ∧
      ∀ a, t.fbCell a = Config.fbDraw (s.resets + 1) a

/-- What power-on reset leaves: PSTATE UNINIT; SCLK and SDA 0, DC at the data level, CS and RES inactive, and the five reset drives, in order, as
the transcript. -/
def Obligations.ResetValues : Prop :=
  State.reset.pstate = .uninit ∧
  State.reset.pins =
    { sclk := false, sda := false, dc := !State.reset.cfg.dcCmdLevel, cs := !State.reset.cfg.csActiveLevel,
      res := !State.reset.cfg.resActiveLevel } ∧
  State.reset.trace.reverse =
    [.drive .sclk false, .drive .sda false, .drive .dc (!State.reset.cfg.dcCmdLevel),
      .drive .cs (!State.reset.cfg.csActiveLevel), .drive .res (!State.reset.cfg.resActiveLevel)]

/-- INIT under a panel that is busy at a later wait. At the wait after 0x12, the first wait having returned after k₀ busy samples, the operation hangs in
SOFTRESET; at the final wait, the second having returned after k₁, it hangs in CONFIGURING. BUSYOP is 1, the commands before that wait have been emitted, and
after n more busy samples the operation still stands at it, with nothing but Sample(true) added. -/
def Obligations.InitHangsAtLaterWaits : Prop :=
  ∀ (s : State) (k₀ n : Nat), Quiet s → BusyTimes s 0 k₀ →
    ((∀ j ≤ n, s.busyAt (k₀ + 1 + j) = true) →
      ∃ t u, exec (.init []) s = .next t ∧ steps (k₀ + n) t = .next u ∧
        u = { emitted s (resetPulseEvents s.cfg ++ busyWaitEvents s.cfg k₀ ++ commandEvents s.cfg 0x12#8 []
                ++ List.replicate (n + 1) (.sample true)) with
              pstate := .softReset, busyOp := true, seq := u.seq, busyIn := u.busyIn, samples := u.samples } ∧
        u.seq.head? = some .poll) ∧
    (∀ k₁ : Nat, BusyTimes s (k₀ + 1) k₁ → (∀ j ≤ n, s.busyAt (k₀ + 1 + k₁ + 1 + j) = true) →
      ∃ t u, exec (.init []) s = .next t ∧ steps (k₀ + k₁ + n) t = .next u ∧
        u = { emitted s (resetPulseEvents s.cfg ++ busyWaitEvents s.cfg k₀ ++ commandEvents s.cfg 0x12#8 []
                ++ busyWaitEvents s.cfg k₁ ++ configEvents s.cfg ++ List.replicate (n + 1) (.sample true)) with
              pstate := .configuring, busyOp := true, seq := u.seq, busyIn := u.busyIn, samples := u.samples } ∧
        u.seq = [.poll, .delay s.cfg.tSettleMs, .finishIdle])
end

