-- ==== Sys2Proof/Laws/State.lean ====
section
/-! SUPPORT. One lemma per field per update of the state, each true by definition, so that no later proof unfolds a record update. -/

namespace Sys2Proof.Machine

@[simp] theorem State.drive_fb (s : State) (pin : Pin) (l : Level) : (s.drive pin l).fb = s.fb := rfl
@[simp] theorem State.drive_pstate (s : State) (pin : Pin) (l : Level) : (s.drive pin l).pstate = s.pstate := rfl
@[simp] theorem State.drive_err (s : State) (pin : Pin) (l : Level) : (s.drive pin l).err = s.err := rfl
@[simp] theorem State.drive_busyOp (s : State) (pin : Pin) (l : Level) : (s.drive pin l).busyOp = s.busyOp := rfl
@[simp] theorem State.drive_ovr (s : State) (pin : Pin) (l : Level) : (s.drive pin l).ovr = s.ovr := rfl
@[simp] theorem State.drive_result (s : State) (pin : Pin) (l : Level) : (s.drive pin l).result = s.result := rfl
@[simp] theorem State.drive_pins (s : State) (pin : Pin) (l : Level) : (s.drive pin l).pins = s.pins.drive pin l := rfl
@[simp] theorem State.drive_seq (s : State) (pin : Pin) (l : Level) : (s.drive pin l).seq = s.seq := rfl
@[simp] theorem State.drive_cfg (s : State) (pin : Pin) (l : Level) : (s.drive pin l).cfg = s.cfg := rfl
@[simp] theorem State.drive_host (s : State) (pin : Pin) (l : Level) : (s.drive pin l).host = s.host := rfl
@[simp] theorem State.drive_busyIn (s : State) (pin : Pin) (l : Level) : (s.drive pin l).busyIn = s.busyIn := rfl
@[simp] theorem State.drive_samples (s : State) (pin : Pin) (l : Level) : (s.drive pin l).samples = s.samples := rfl
@[simp] theorem State.drive_resets (s : State) (pin : Pin) (l : Level) : (s.drive pin l).resets = s.resets := rfl
@[simp] theorem State.drive_trace (s : State) (pin : Pin) (l : Level) : (s.drive pin l).trace = .drive pin l :: s.trace := rfl
@[simp] theorem State.drive_replies (s : State) (pin : Pin) (l : Level) : (s.drive pin l).replies = s.replies := rfl

@[simp] theorem State.delay_fb (s : State) (ms : Nat) : (s.delay ms).fb = s.fb := rfl
@[simp] theorem State.delay_pstate (s : State) (ms : Nat) : (s.delay ms).pstate = s.pstate := rfl
@[simp] theorem State.delay_err (s : State) (ms : Nat) : (s.delay ms).err = s.err := rfl
@[simp] theorem State.delay_busyOp (s : State) (ms : Nat) : (s.delay ms).busyOp = s.busyOp := rfl
@[simp] theorem State.delay_ovr (s : State) (ms : Nat) : (s.delay ms).ovr = s.ovr := rfl
@[simp] theorem State.delay_result (s : State) (ms : Nat) : (s.delay ms).result = s.result := rfl
@[simp] theorem State.delay_pins (s : State) (ms : Nat) : (s.delay ms).pins = s.pins := rfl
@[simp] theorem State.delay_seq (s : State) (ms : Nat) : (s.delay ms).seq = s.seq := rfl
@[simp] theorem State.delay_cfg (s : State) (ms : Nat) : (s.delay ms).cfg = s.cfg := rfl
@[simp] theorem State.delay_host (s : State) (ms : Nat) : (s.delay ms).host = s.host := rfl
@[simp] theorem State.delay_busyIn (s : State) (ms : Nat) : (s.delay ms).busyIn = s.busyIn := rfl
@[simp] theorem State.delay_samples (s : State) (ms : Nat) : (s.delay ms).samples = s.samples := rfl
@[simp] theorem State.delay_resets (s : State) (ms : Nat) : (s.delay ms).resets = s.resets := rfl
@[simp] theorem State.delay_trace (s : State) (ms : Nat) : (s.delay ms).trace = .delay ms :: s.trace := rfl
@[simp] theorem State.delay_replies (s : State) (ms : Nat) : (s.delay ms).replies = s.replies := rfl

@[simp] theorem State.sample_fb (s : State) : s.sample.fb = s.fb := rfl
@[simp] theorem State.sample_pstate (s : State) : s.sample.pstate = s.pstate := rfl
@[simp] theorem State.sample_err (s : State) : s.sample.err = s.err := rfl
@[simp] theorem State.sample_busyOp (s : State) : s.sample.busyOp = s.busyOp := rfl
@[simp] theorem State.sample_ovr (s : State) : s.sample.ovr = s.ovr := rfl
@[simp] theorem State.sample_result (s : State) : s.sample.result = s.result := rfl
@[simp] theorem State.sample_pins (s : State) : s.sample.pins = s.pins := rfl
@[simp] theorem State.sample_seq (s : State) : s.sample.seq = s.seq := rfl
@[simp] theorem State.sample_cfg (s : State) : s.sample.cfg = s.cfg := rfl
@[simp] theorem State.sample_host (s : State) : s.sample.host = s.host := rfl
@[simp] theorem State.sample_busyIn (s : State) : s.sample.busyIn = s.busyIn.tail := rfl
@[simp] theorem State.sample_samples (s : State) : s.sample.samples = s.samples + 1 := rfl
@[simp] theorem State.sample_resets (s : State) : s.sample.resets = s.resets := rfl
@[simp] theorem State.sample_trace (s : State) : s.sample.trace = .sample (s.busyAt 0) :: s.trace := rfl
@[simp] theorem State.sample_replies (s : State) : s.sample.replies = s.replies := rfl

@[simp] theorem State.accept_fb (s : State) (prog : List SeqOp) : (s.accept prog).fb = s.fb := rfl
@[simp] theorem State.accept_pstate (s : State) (prog : List SeqOp) : (s.accept prog).pstate = s.pstate := rfl
@[simp] theorem State.accept_err (s : State) (prog : List SeqOp) : (s.accept prog).err = s.err := rfl
@[simp] theorem State.accept_busyOp (s : State) (prog : List SeqOp) : (s.accept prog).busyOp = true := rfl
@[simp] theorem State.accept_ovr (s : State) (prog : List SeqOp) : (s.accept prog).ovr = s.ovr := rfl
@[simp] theorem State.accept_result (s : State) (prog : List SeqOp) : (s.accept prog).result = s.result := rfl
@[simp] theorem State.accept_pins (s : State) (prog : List SeqOp) : (s.accept prog).pins = s.pins := rfl
@[simp] theorem State.accept_seq (s : State) (prog : List SeqOp) : (s.accept prog).seq = prog := rfl
@[simp] theorem State.accept_cfg (s : State) (prog : List SeqOp) : (s.accept prog).cfg = s.cfg := rfl
@[simp] theorem State.accept_host (s : State) (prog : List SeqOp) : (s.accept prog).host = s.host := rfl
@[simp] theorem State.accept_busyIn (s : State) (prog : List SeqOp) : (s.accept prog).busyIn = s.busyIn := rfl
@[simp] theorem State.accept_samples (s : State) (prog : List SeqOp) : (s.accept prog).samples = s.samples := rfl
@[simp] theorem State.accept_resets (s : State) (prog : List SeqOp) : (s.accept prog).resets = s.resets := rfl
@[simp] theorem State.accept_trace (s : State) (prog : List SeqOp) : (s.accept prog).trace = s.trace := rfl
@[simp] theorem State.accept_replies (s : State) (prog : List SeqOp) : (s.accept prog).replies = s.replies := rfl

@[simp] theorem State.finish_fb (s : State) (code : Err) : (s.finish code).fb = s.fb := rfl
@[simp] theorem State.finish_pstate (s : State) (code : Err) : (s.finish code).pstate = s.pstate := rfl
@[simp] theorem State.finish_err (s : State) (code : Err) : (s.finish code).err = code := rfl
@[simp] theorem State.finish_busyOp (s : State) (code : Err) : (s.finish code).busyOp = false := rfl
@[simp] theorem State.finish_ovr (s : State) (code : Err) : (s.finish code).ovr = s.ovr := rfl
@[simp] theorem State.finish_result (s : State) (code : Err) : (s.finish code).result = s.result := rfl
@[simp] theorem State.finish_pins (s : State) (code : Err) : (s.finish code).pins = s.pins := rfl
@[simp] theorem State.finish_seq (s : State) (code : Err) : (s.finish code).seq = [] := rfl
@[simp] theorem State.finish_cfg (s : State) (code : Err) : (s.finish code).cfg = s.cfg := rfl
@[simp] theorem State.finish_host (s : State) (code : Err) : (s.finish code).host = s.host := rfl
@[simp] theorem State.finish_busyIn (s : State) (code : Err) : (s.finish code).busyIn = s.busyIn := rfl
@[simp] theorem State.finish_samples (s : State) (code : Err) : (s.finish code).samples = s.samples := rfl
@[simp] theorem State.finish_resets (s : State) (code : Err) : (s.finish code).resets = s.resets := rfl
@[simp] theorem State.finish_trace (s : State) (code : Err) : (s.finish code).trace = s.trace := rfl
@[simp] theorem State.finish_replies (s : State) (code : Err) : (s.finish code).replies = s.replies := rfl

@[simp] theorem State.raise_fb (s : State) (e : Err) : (s.raise e).fb = s.fb := rfl
@[simp] theorem State.raise_pstate (s : State) (e : Err) : (s.raise e).pstate = s.pstate := rfl
@[simp] theorem State.raise_err (s : State) (e : Err) : (s.raise e).err = e := rfl
@[simp] theorem State.raise_busyOp (s : State) (e : Err) : (s.raise e).busyOp = false := rfl
@[simp] theorem State.raise_ovr (s : State) (e : Err) : (s.raise e).ovr = s.ovr := rfl
@[simp] theorem State.raise_result (s : State) (e : Err) : (s.raise e).result = s.result := rfl
@[simp] theorem State.raise_pins (s : State) (e : Err) : (s.raise e).pins = s.pins := rfl
@[simp] theorem State.raise_seq (s : State) (e : Err) : (s.raise e).seq = [] := rfl
@[simp] theorem State.raise_cfg (s : State) (e : Err) : (s.raise e).cfg = s.cfg := rfl
@[simp] theorem State.raise_host (s : State) (e : Err) : (s.raise e).host = s.host := rfl
@[simp] theorem State.raise_busyIn (s : State) (e : Err) : (s.raise e).busyIn = s.busyIn := rfl
@[simp] theorem State.raise_samples (s : State) (e : Err) : (s.raise e).samples = s.samples := rfl
@[simp] theorem State.raise_resets (s : State) (e : Err) : (s.raise e).resets = s.resets := rfl
@[simp] theorem State.raise_trace (s : State) (e : Err) : (s.raise e).trace = s.trace := rfl
@[simp] theorem State.raise_replies (s : State) (e : Err) : (s.raise e).replies = s.replies := rfl

@[simp] theorem State.dropIssue_fb (s : State) : s.dropIssue.fb = s.fb := rfl
@[simp] theorem State.dropIssue_pstate (s : State) : s.dropIssue.pstate = s.pstate := rfl
@[simp] theorem State.dropIssue_err (s : State) : s.dropIssue.err = s.err := rfl
@[simp] theorem State.dropIssue_busyOp (s : State) : s.dropIssue.busyOp = s.busyOp := rfl
@[simp] theorem State.dropIssue_ovr (s : State) : s.dropIssue.ovr = true := rfl
@[simp] theorem State.dropIssue_result (s : State) : s.dropIssue.result = s.result := rfl
@[simp] theorem State.dropIssue_pins (s : State) : s.dropIssue.pins = s.pins := rfl
@[simp] theorem State.dropIssue_seq (s : State) : s.dropIssue.seq = s.seq := rfl
@[simp] theorem State.dropIssue_cfg (s : State) : s.dropIssue.cfg = s.cfg := rfl
@[simp] theorem State.dropIssue_host (s : State) : s.dropIssue.host = s.host := rfl
@[simp] theorem State.dropIssue_busyIn (s : State) : s.dropIssue.busyIn = s.busyIn := rfl
@[simp] theorem State.dropIssue_samples (s : State) : s.dropIssue.samples = s.samples := rfl
@[simp] theorem State.dropIssue_resets (s : State) : s.dropIssue.resets = s.resets := rfl
@[simp] theorem State.dropIssue_trace (s : State) : s.dropIssue.trace = s.trace := rfl
@[simp] theorem State.dropIssue_replies (s : State) : s.dropIssue.replies = s.replies := rfl

@[simp] theorem State.receiveIssue_fb (s : State) : s.receiveIssue.fb = s.fb := rfl
@[simp] theorem State.receiveIssue_pstate (s : State) : s.receiveIssue.pstate = s.pstate := rfl
@[simp] theorem State.receiveIssue_err (s : State) : s.receiveIssue.err = s.err := rfl
@[simp] theorem State.receiveIssue_busyOp (s : State) : s.receiveIssue.busyOp = s.busyOp := rfl
@[simp] theorem State.receiveIssue_ovr (s : State) : s.receiveIssue.ovr = false := rfl
@[simp] theorem State.receiveIssue_result (s : State) : s.receiveIssue.result = s.result := rfl
@[simp] theorem State.receiveIssue_pins (s : State) : s.receiveIssue.pins = s.pins := rfl
@[simp] theorem State.receiveIssue_seq (s : State) : s.receiveIssue.seq = s.seq := rfl
@[simp] theorem State.receiveIssue_cfg (s : State) : s.receiveIssue.cfg = s.cfg := rfl
@[simp] theorem State.receiveIssue_host (s : State) : s.receiveIssue.host = s.host := rfl
@[simp] theorem State.receiveIssue_busyIn (s : State) : s.receiveIssue.busyIn = s.busyIn := rfl
@[simp] theorem State.receiveIssue_samples (s : State) : s.receiveIssue.samples = s.samples := rfl
@[simp] theorem State.receiveIssue_resets (s : State) : s.receiveIssue.resets = s.resets := rfl
@[simp] theorem State.receiveIssue_trace (s : State) : s.receiveIssue.trace = s.trace := rfl
@[simp] theorem State.receiveIssue_replies (s : State) : s.receiveIssue.replies = s.replies := rfl

@[simp] theorem State.readStatus_fb (s : State) : s.readStatus.fb = s.fb := rfl
@[simp] theorem State.readStatus_pstate (s : State) : s.readStatus.pstate = s.pstate := rfl
@[simp] theorem State.readStatus_err (s : State) : s.readStatus.err = s.err := rfl
@[simp] theorem State.readStatus_busyOp (s : State) : s.readStatus.busyOp = s.busyOp := rfl
@[simp] theorem State.readStatus_ovr (s : State) : s.readStatus.ovr = s.ovr := rfl
@[simp] theorem State.readStatus_result (s : State) : s.readStatus.result = s.result := rfl
@[simp] theorem State.readStatus_pins (s : State) : s.readStatus.pins = s.pins := rfl
@[simp] theorem State.readStatus_seq (s : State) : s.readStatus.seq = s.seq := rfl
@[simp] theorem State.readStatus_cfg (s : State) : s.readStatus.cfg = s.cfg := rfl
@[simp] theorem State.readStatus_host (s : State) : s.readStatus.host = s.host := rfl
@[simp] theorem State.readStatus_busyIn (s : State) : s.readStatus.busyIn = s.busyIn := rfl
@[simp] theorem State.readStatus_samples (s : State) : s.readStatus.samples = s.samples := rfl
@[simp] theorem State.readStatus_resets (s : State) : s.readStatus.resets = s.resets := rfl
@[simp] theorem State.readStatus_trace (s : State) : s.readStatus.trace = s.trace := rfl
@[simp] theorem State.readStatus_replies (s : State) : s.readStatus.replies = .status s.status :: s.replies := rfl

@[simp] theorem State.readResult_fb (s : State) : s.readResult.fb = s.fb := rfl
@[simp] theorem State.readResult_pstate (s : State) : s.readResult.pstate = s.pstate := rfl
@[simp] theorem State.readResult_err (s : State) : s.readResult.err = s.err := rfl
@[simp] theorem State.readResult_busyOp (s : State) : s.readResult.busyOp = s.busyOp := rfl
@[simp] theorem State.readResult_ovr (s : State) : s.readResult.ovr = s.ovr := rfl
@[simp] theorem State.readResult_result (s : State) : s.readResult.result = s.result := rfl
@[simp] theorem State.readResult_pins (s : State) : s.readResult.pins = s.pins := rfl
@[simp] theorem State.readResult_seq (s : State) : s.readResult.seq = s.seq := rfl
@[simp] theorem State.readResult_cfg (s : State) : s.readResult.cfg = s.cfg := rfl
@[simp] theorem State.readResult_host (s : State) : s.readResult.host = s.host := rfl
@[simp] theorem State.readResult_busyIn (s : State) : s.readResult.busyIn = s.busyIn := rfl
@[simp] theorem State.readResult_samples (s : State) : s.readResult.samples = s.samples := rfl
@[simp] theorem State.readResult_resets (s : State) : s.readResult.resets = s.resets := rfl
@[simp] theorem State.readResult_trace (s : State) : s.readResult.trace = s.trace := rfl
@[simp] theorem State.readResult_replies (s : State) : s.readResult.replies = .result s.result :: s.replies := rfl

@[simp] theorem State.tick_fb (s : State) : s.tick.fb = s.fb := rfl
@[simp] theorem State.tick_pstate (s : State) : s.tick.pstate = s.pstate := rfl
@[simp] theorem State.tick_err (s : State) : s.tick.err = s.err := rfl
@[simp] theorem State.tick_busyOp (s : State) : s.tick.busyOp = s.busyOp := rfl
@[simp] theorem State.tick_ovr (s : State) : s.tick.ovr = s.ovr := rfl
@[simp] theorem State.tick_result (s : State) : s.tick.result = s.result := rfl
@[simp] theorem State.tick_pins (s : State) : s.tick.pins = s.pins := rfl
@[simp] theorem State.tick_seq (s : State) : s.tick.seq = s.seq := rfl
@[simp] theorem State.tick_cfg (s : State) : s.tick.cfg = s.cfg := rfl
@[simp] theorem State.tick_host (s : State) : s.tick.host = tickArrivals s.host := rfl
@[simp] theorem State.tick_busyIn (s : State) : s.tick.busyIn = s.busyIn := rfl
@[simp] theorem State.tick_samples (s : State) : s.tick.samples = s.samples := rfl
@[simp] theorem State.tick_resets (s : State) : s.tick.resets = s.resets := rfl
@[simp] theorem State.tick_trace (s : State) : s.tick.trace = s.trace := rfl
@[simp] theorem State.tick_replies (s : State) : s.tick.replies = s.replies := rfl

@[simp] theorem State.setFbCell_fb (s : State) (a : Nat) (v : Byte) : (s.setFbCell a v).fb = Memory.write s.fb a v := rfl
@[simp] theorem State.setFbCell_pstate (s : State) (a : Nat) (v : Byte) : (s.setFbCell a v).pstate = s.pstate := rfl
@[simp] theorem State.setFbCell_err (s : State) (a : Nat) (v : Byte) : (s.setFbCell a v).err = s.err := rfl
@[simp] theorem State.setFbCell_busyOp (s : State) (a : Nat) (v : Byte) : (s.setFbCell a v).busyOp = s.busyOp := rfl
@[simp] theorem State.setFbCell_ovr (s : State) (a : Nat) (v : Byte) : (s.setFbCell a v).ovr = s.ovr := rfl
@[simp] theorem State.setFbCell_result (s : State) (a : Nat) (v : Byte) : (s.setFbCell a v).result = s.result := rfl
@[simp] theorem State.setFbCell_pins (s : State) (a : Nat) (v : Byte) : (s.setFbCell a v).pins = s.pins := rfl
@[simp] theorem State.setFbCell_seq (s : State) (a : Nat) (v : Byte) : (s.setFbCell a v).seq = s.seq := rfl
@[simp] theorem State.setFbCell_cfg (s : State) (a : Nat) (v : Byte) : (s.setFbCell a v).cfg = s.cfg := rfl
@[simp] theorem State.setFbCell_host (s : State) (a : Nat) (v : Byte) : (s.setFbCell a v).host = s.host := rfl
@[simp] theorem State.setFbCell_busyIn (s : State) (a : Nat) (v : Byte) : (s.setFbCell a v).busyIn = s.busyIn := rfl
@[simp] theorem State.setFbCell_samples (s : State) (a : Nat) (v : Byte) : (s.setFbCell a v).samples = s.samples := rfl
@[simp] theorem State.setFbCell_resets (s : State) (a : Nat) (v : Byte) : (s.setFbCell a v).resets = s.resets := rfl
@[simp] theorem State.setFbCell_trace (s : State) (a : Nat) (v : Byte) : (s.setFbCell a v).trace = s.trace := rfl
@[simp] theorem State.setFbCell_replies (s : State) (a : Nat) (v : Byte) : (s.setFbCell a v).replies = s.replies := rfl

@[simp] theorem State.blockReset_fb (s : State) : s.blockReset.fb = [] := rfl
@[simp] theorem State.blockReset_pstate (s : State) : s.blockReset.pstate = .uninit := rfl
@[simp] theorem State.blockReset_err (s : State) : s.blockReset.err = .ok := rfl
@[simp] theorem State.blockReset_busyOp (s : State) : s.blockReset.busyOp = false := rfl
@[simp] theorem State.blockReset_ovr (s : State) : s.blockReset.ovr = false := rfl
@[simp] theorem State.blockReset_result (s : State) : s.blockReset.result = 0#8 := rfl
@[simp] theorem State.blockReset_pins (s : State) : s.blockReset.pins = Pins.atReset s.cfg := rfl
@[simp] theorem State.blockReset_seq (s : State) : s.blockReset.seq = [] := rfl
@[simp] theorem State.blockReset_cfg (s : State) : s.blockReset.cfg = s.cfg := rfl
@[simp] theorem State.blockReset_host (s : State) : s.blockReset.host = s.host := rfl
@[simp] theorem State.blockReset_busyIn (s : State) : s.blockReset.busyIn = s.busyIn := rfl
@[simp] theorem State.blockReset_samples (s : State) : s.blockReset.samples = s.samples := rfl
@[simp] theorem State.blockReset_resets (s : State) : s.blockReset.resets = s.resets + 1 := rfl
@[simp] theorem State.blockReset_trace (s : State) : s.blockReset.trace = resetDrives s.cfg ++ s.trace := rfl
@[simp] theorem State.blockReset_replies (s : State) : s.blockReset.replies = s.replies := rfl

end Sys2Proof.Machine
end

