-- ==== Sys2Proof/Laws/Memory.lean ====
section
/-! SUPPORT. Memory: a read after a write, and every memory operation keeps the canonical form. -/

namespace Sys2Proof.Machine

theorem Memory.lookup_write_same (m : Memory) (a : Nat) (v : Byte) : Memory.lookup (Memory.write m a v) a = some v := by
  induction m with
  | nil => simp [Memory.write, Memory.lookup]
  | cons c m ih =>
    obtain ⟨a', v'⟩ := c
    by_cases h1 : a < a'
    · simp [Memory.write, Memory.lookup, h1]
    · by_cases h2 : a = a'
      · simp [Memory.write, Memory.lookup, h2]
      · simp [Memory.write, Memory.lookup, h1, h2, ih, Ne.symm h2]

theorem Memory.lookup_write_other (m : Memory) {a b : Nat} (v : Byte) (h : b ≠ a) :
    Memory.lookup (Memory.write m a v) b = Memory.lookup m b := by
  induction m with
  | nil => simp [Memory.write, Memory.lookup, Ne.symm h]
  | cons c m ih =>
    obtain ⟨a', v'⟩ := c
    by_cases h1 : a < a'
    · simp [Memory.write, Memory.lookup, h1, Ne.symm h]
    · by_cases h2 : a = a'
      · subst h2
        simp [Memory.write, Memory.lookup, Ne.symm h]
      · simp [Memory.write, Memory.lookup, h1, h2, ih]

theorem Memory.risesFrom_mono {m : Memory} {lo lo' : Nat} (h : Memory.risesFrom lo m = true) (hle : lo' ≤ lo) :
    Memory.risesFrom lo' m = true := by
  cases m with
  | nil => rfl
  | cons c m =>
    simp only [Memory.risesFrom, Bool.and_eq_true, decide_eq_true_eq] at h ⊢
    exact ⟨⟨Nat.le_trans hle h.1.1, h.1.2⟩, h.2⟩

theorem Memory.risesFrom_write {m : Memory} {lo a : Nat} (v : Byte) (h : Memory.risesFrom lo m = true) (hlo : lo ≤ a)
    (ha : a < FB_BYTES) : Memory.risesFrom lo (Memory.write m a v) = true := by
  induction m generalizing lo with
  | nil => simp [Memory.write, Memory.risesFrom, hlo, ha]
  | cons c m ih =>
    obtain ⟨a', v'⟩ := c
    simp only [Memory.risesFrom, Bool.and_eq_true, decide_eq_true_eq] at h
    by_cases h1 : a < a'
    · simp only [Memory.write, h1, if_true, Memory.risesFrom, Bool.and_eq_true, decide_eq_true_eq]
      exact ⟨⟨hlo, ha⟩, ⟨h1, h.1.2⟩, h.2⟩
    · by_cases h2 : a = a'
      · subst h2
        simp [Memory.write, Memory.risesFrom, h.1.1, ha, h.2]
      · simp only [Memory.write, h1, h2, if_false, Memory.risesFrom, Bool.and_eq_true, decide_eq_true_eq]
        exact ⟨h.1, ih h.2 (by omega)⟩

/-- A write inside the frame buffer keeps the canonical form. -/
theorem Memory.wf_write {m : Memory} {a : Nat} (v : Byte) (h : Memory.wf m = true) (ha : a < FB_BYTES) :
    Memory.wf (Memory.write m a v) = true := Memory.risesFrom_write v h (Nat.zero_le a) ha

theorem Memory.risesFrom_range' (f : Nat → Byte) (n : Nat) :
    ∀ lo, lo + n ≤ FB_BYTES → Memory.risesFrom lo ((List.range' lo n).map fun a => (a, f a)) = true := by
  induction n with
  | zero => intro lo _; rfl
  | succ n ih =>
    intro lo h
    simp only [List.range'_succ, List.map_cons, Memory.risesFrom, Bool.and_eq_true, decide_eq_true_eq]
    exact ⟨⟨Nat.le_refl lo, by omega⟩, ih (lo + 1) (by omega)⟩

theorem Memory.wf_tabulate (f : Nat → Byte) : Memory.wf (Memory.tabulate f) = true := by
  rw [Memory.wf, Memory.tabulate, List.range_eq_range']
  exact Memory.risesFrom_range' f FB_BYTES 0 (by omega)

theorem Memory.lookup_range' (f : Nat → Byte) (n : Nat) :
    ∀ lo a, lo ≤ a → a < lo + n → Memory.lookup ((List.range' lo n).map fun a => (a, f a)) a = some (f a) := by
  induction n with
  | zero => intro lo a h1 h2; omega
  | succ n ih =>
    intro lo a h1 h2
    rw [List.range'_succ, List.map_cons, Memory.lookup]
    by_cases h : lo = a
    · simp [h]
    · rw [if_neg h]
      exact ih (lo + 1) a (by omega) (by omega)

theorem Memory.lookup_tabulate (f : Nat → Byte) {a : Nat} (h : a < FB_BYTES) :
    Memory.lookup (Memory.tabulate f) a = some (f a) := by
  rw [Memory.tabulate, List.range_eq_range']
  exact Memory.lookup_range' f FB_BYTES 0 a (Nat.zero_le a) (by omega)

/-! ### Frame-buffer bytes -/

theorem State.fbCell_setFbCell_same (s : State) (a : Nat) (v : Byte) : (s.setFbCell a v).fbCell a = v := by
  simp [State.fbCell, Memory.lookup_write_same]

theorem State.fbCell_setFbCell_other (s : State) {a b : Nat} (v : Byte) (h : b ≠ a) :
    (s.setFbCell a v).fbCell b = s.fbCell b := by
  simp [State.fbCell, Memory.lookup_write_other _ v h]

theorem inFB_iff {p c : Int} : inFB p c = true ↔ 0 ≤ p ∧ p ≤ 15 ∧ 0 ≤ c ∧ c ≤ 247 := by
  simp [inFB, and_assoc]

theorem fbIndex_lt {p c : Int} (h : inFB p c = true) : fbIndex p c < FB_BYTES := by
  rw [inFB_iff] at h
  simp only [fbIndex, FB_BYTES]
  omega

/-- The linear index tells cells of the window apart (20_memory.md R51). -/
theorem fbIndex_inj {p c q d : Int} (h : inFB p c = true) (h' : inFB q d = true) (he : fbIndex p c = fbIndex q d) :
    p = q ∧ c = d := by
  rw [inFB_iff] at h h'
  simp only [fbIndex] at he
  omega

/-- All a read-modify-write does to a byte of the window. -/
theorem State.fbByte_fbModify (s : State) (p c : Int) (f : Byte → Byte) {q d : Int} (h : inFB q d = true) :
    (s.fbModify p c f).fbByte q d = if q = p ∧ d = c then f (s.fbByte p c) else s.fbByte q d := by
  rw [State.fbModify]
  by_cases hp : inFB p c = true
  · rw [if_pos hp]
    by_cases hq : q = p ∧ d = c
    · obtain ⟨rfl, rfl⟩ := hq
      rw [if_pos ⟨rfl, rfl⟩, State.fbByte, State.fbCell_setFbCell_same]
    · rw [if_neg hq]
      exact State.fbCell_setFbCell_other s _ fun he => hq (fbIndex_inj h hp he)
  · rw [if_neg hp, if_neg]
    rintro ⟨rfl, rfl⟩
    exact hp h

/-- A read-modify-write changes only the frame buffer. -/
theorem State.fbModify_eq (s : State) (p c : Int) (f : Byte → Byte) :
    s.fbModify p c f = { s with fb := (s.fbModify p c f).fb } := by
  rw [State.fbModify]; split <;> rfl

theorem State.fbModify_wf (s : State) (p c : Int) (f : Byte → Byte) (h : Memory.wf s.fb = true) :
    Memory.wf (s.fbModify p c f).fb = true := by
  rw [State.fbModify]
  split
  · rename_i hp
    exact Memory.wf_write _ h (fbIndex_lt hp)
  · exact h

/-- What a loop keeps, when every pass of its body keeps it. -/
theorem forRange_keeps {P : State → Prop} {body : Int → State → State} (hb : ∀ i s, P s → P (body i s)) (n : Nat) :
    ∀ lo s, P s → P (forRange lo n body s) := by
  induction n with
  | zero => intro lo s h; exact h
  | succ n ih => intro lo s h; exact ih (lo + 1) _ (hb lo s h)

/-- Two states that agree on all but the frame buffer and RESULT. -/
def State.sameButFb (s t : State) : Prop := t = { s with fb := t.fb, result := t.result }

theorem State.sameButFb_refl (s : State) : s.sameButFb s := rfl

theorem State.sameButFb_trans {s t u : State} (h1 : s.sameButFb t) (h2 : t.sameButFb u) : s.sameButFb u := by
  rw [State.sameButFb] at *
  rw [h2, h1]

theorem State.fbModify_sameButFb (s : State) (p c : Int) (f : Byte → Byte) : s.sameButFb (s.fbModify p c f) := by
  rw [State.sameButFb, State.fbModify_eq]

theorem State.forPixels_keeps {P : State → Prop} (hm : ∀ s p c g, P s → P (s.fbModify p c g)) (x y : Int) (w h : Nat)
    (f : Nat → Byte → Byte) (s : State) (hs : P s) : P (s.forPixels x y w h f) := by
  refine forRange_keeps (fun Y s hs => forRange_keeps (fun X s hs => ?_) _ _ _ hs) _ _ _ hs
  split
  · exact hm _ _ _ _ hs
  · exact hs

theorem State.orStripByte_keeps {P : State → Prop} (hm : ∀ s p c g, P s → P (s.fbModify p c g)) (page shift j c : Int) (v : Byte)
    (s : State) (hs : P s) : P (s.orStripByte page shift j c v) := by
  rw [State.orStripByte]
  exact hm _ _ _ _ (hm _ _ _ _ hs)

theorem State.plotBody_keeps {P : State → Prop} (hm : ∀ s p c g, P s → P (s.fbModify p c g)) (x y : Int) (w h : Nat)
    (bitmap : List Byte) (s : State) (hs : P s) : P (s.plotBody x y w h bitmap) := by
  rw [State.plotBody]
  exact forRange_keeps (fun _ _ h => forRange_keeps (fun _ _ h => State.orStripByte_keeps hm _ _ _ _ _ _ h) _ _ _ h) _ _ _
    (State.forPixels_keeps hm x y w h _ s hs)

/-- What every compositing operation keeps, when the two whole-buffer writes, READFB and every read-modify-write keep it. -/
theorem State.doFb_keeps {P : State → Prop} (hf : ∀ s f, P s → P { s with fb := Memory.tabulate f })
    (hr : ∀ s r, P s → P { s with result := r }) (hm : ∀ s p c g, P s → P (s.fbModify p c g)) (s : State) (op : FbOp)
    (hs : P s) : P (s.doFb op) := by
  cases op with
  | clear => rw [State.doFb, State.clearAll]; exact hf s _ hs
  | clearArea x y w h => rw [State.doFb, State.clearAreaBody]; exact State.forPixels_keeps hm x y w h _ s hs
  | reverse => rw [State.doFb, State.reverseAll]; exact hf s _ hs
  | reverseArea x y w h => rw [State.doFb, State.reverseAreaBody]; exact State.forPixels_keeps hm x y w h _ s hs
  | plot x y w h b => rw [State.doFb]; exact State.plotBody_keeps hm x y w h b s hs
  | read c p => rw [State.doFb, State.readBody]; exact hr s _ hs

/-- Every compositing operation keeps the canonical form of the frame buffer. -/
theorem State.doFb_wf (s : State) (op : FbOp) (h : Memory.wf s.fb = true) : Memory.wf (s.doFb op).fb = true := by
  refine State.doFb_keeps (P := fun s => Memory.wf s.fb = true) ?_ (fun _ _ h => h) State.fbModify_wf s op h
  intro _ f _
  simp only [Memory.wf_tabulate]

/-- A compositing operation changes only the frame buffer and RESULT. -/
theorem State.doFb_sameButFb (s : State) (op : FbOp) : s.sameButFb (s.doFb op) := by
  refine State.doFb_keeps (P := s.sameButFb) (fun t f h => ?_) (fun t r h => ?_) (fun t p c g h => ?_) s op rfl
  · rw [State.sameButFb] at h ⊢; rw [h]
  · rw [State.sameButFb] at h ⊢; rw [h]
  · exact State.sameButFb_trans h (State.fbModify_sameButFb t p c g)

end Sys2Proof.Machine
end

