-- ==== Sys2Proof/Laws/Run.lean ====
section
/-! SUPPORT. What running an operation can do: one lemma per shared operation, cited instead of unfolding it. -/

namespace Sys2Proof.Machine

/-! ### The amount of work left -/

@[simp] theorem seqWork_nil (cfg : Params) : seqWork cfg [] = 0 := rfl

@[simp] theorem seqWork_cons (cfg : Params) (op : SeqOp) (l : List SeqOp) :
    seqWork cfg (op :: l) = op.work cfg + seqWork cfg l := by simp [seqWork]

@[simp] theorem seqWork_append (cfg : Params) (l m : List SeqOp) : seqWork cfg (l ++ m) = seqWork cfg l + seqWork cfg m := by
  simp [seqWork]

theorem SeqOp.work_pos (cfg : Params) (op : SeqOp) : 1 ≤ op.work cfg := by
  cases op <;> simp [SeqOp.work]

/-- A list of drives and delays: what emits its events whatever the state is. -/
def Plain (l : List SeqOp) : Prop := ∀ op ∈ l, op.event.isSome = true

theorem Plain.append {l m : List SeqOp} (h : Plain l) (h' : Plain m) : Plain (l ++ m) := by
  intro op ho
  rcases List.mem_append.1 ho with ho | ho
  · exact h op ho
  · exact h' op ho

theorem Plain.flatMap {α : Type} {l : List α} {f : α → List SeqOp} (h : ∀ a, Plain (f a)) : Plain (l.flatMap f) := by
  intro op ho
  obtain ⟨a, -, ha⟩ := List.mem_flatMap.1 ho
  exact h a op ha

theorem Plain.cons {op : SeqOp} {l : List SeqOp} (h : op.event.isSome = true) (h' : Plain l) : Plain (op :: l) := by
  intro o ho
  rcases List.mem_cons.1 ho with rfl | ho
  · exact h
  · exact h' o ho

theorem seqWork_plain (cfg : Params) {l : List SeqOp} (h : Plain l) : seqWork cfg l = l.length := by
  induction l with
  | nil => rfl
  | cons op l ih =>
    have h1 := h op (by simp)
    rw [seqWork_cons, ih fun o ho => h o (by simp [ho])]
    cases op <;> simp [SeqOp.event] at h1 <;> simp [SeqOp.work, Nat.add_comm]

theorem eventsOf_append (l m : List SeqOp) : eventsOf (l ++ m) = eventsOf l ++ eventsOf m := by
  simp [eventsOf]

theorem shiftByte_plain (v : Byte) : Plain (shiftByte v) := by
  rw [shiftByte]
  refine Plain.flatMap fun k => ?_
  intro op ho
  simp only [bitCell, List.mem_cons, List.not_mem_nil, or_false] at ho
  rcases ho with rfl | rfl | rfl <;> rfl

theorem frame_plain (cfg : Params) (k : Kind) (bs : List Byte) : Plain (frame cfg k bs) := by
  rw [frame]
  refine Plain.cons rfl (Plain.cons rfl (Plain.append (Plain.flatMap shiftByte_plain) (Plain.cons rfl ?_)))
  intro op ho
  simp at ho

theorem sendPayload_plain (cfg : Params) (bs : List Byte) : Plain (sendPayload cfg bs) := by
  rw [sendPayload]
  cases cfg.dataFraming with
  | perPayload =>
    dsimp only
    split
    · intro op ho; simp at ho
    · exact frame_plain _ _ _
  | perByte => exact Plain.flatMap fun b => frame_plain _ _ _

theorem emit_plain (cfg : Params) (op : Byte) (p : List Byte) : Plain (emit cfg op p) :=
  Plain.append (frame_plain _ _ _) (sendPayload_plain _ _)

theorem hostSend_plain (cfg : Params) (op : Byte) (p : List Byte) : Plain (hostSend cfg op p) := by
  refine Plain.append (frame_plain _ _ _) ?_
  split
  · intro o ho; cases ho
  · exact frame_plain _ _ _

/-- A command that INIT or UPDATE sends is Emit(op, P). -/
theorem wireOps_of_not_hostOnly {op : Byte} (h : hostOnly op = false) (cfg : Params) (p : List Byte) :
    wireOps cfg op p = emit cfg op p := by simp [wireOps, h]

/-- A command that only a host sends has its payload in one frame. -/
theorem wireOps_of_hostOnly {op : Byte} (h : hostOnly op = true) (cfg : Params) (p : List Byte) :
    wireOps cfg op p = hostSend cfg op p := by simp [wireOps, h]

/-- A payload of one byte is one frame in either value of DATA_FRAMING. -/
theorem hostSend_singleton (cfg : Params) (op b : Byte) : hostSend cfg op [b] = emit cfg op [b] := by
  simp only [hostSend, emit, sendPayload]
  cases cfg.dataFraming <;> simp

theorem wireOps_plain (cfg : Params) (op : Byte) (p : List Byte) : Plain (wireOps cfg op p) := by
  rw [wireOps]
  split
  · exact hostSend_plain _ _ _
  · exact emit_plain _ _ _

/-! ### Carrying an operation on -/

theorem State.advanceFor_idle (n : Nat) {s : State} (h : s.seq = []) : s.advanceFor n = s := by
  cases n with
  | zero => rfl
  | succ n => rw [State.advanceFor, h]

/-- What an operation keeps, when each of its micro-operations keeps it. -/
theorem State.advanceFor_keeps {P : State → Prop}
    (hm : ∀ (s : State) op rest, s.seq = op :: rest → P s → P (s.micro op rest).1) (n : Nat) :
    ∀ s : State, P s → P (s.advanceFor n) := by
  induction n with
  | zero => intro s h; exact h
  | succ n ih =>
    intro s h
    rw [State.advanceFor]
    split
    · exact h
    · rename_i op rest hseq
      split
      · exact h
      · have h1 := hm s op rest hseq h
        split <;> rename_i s' heq <;> rw [heq] at h1
        · exact h1
        · exact ih s' h1

theorem State.advance_keeps {P : State → Prop}
    (hm : ∀ (s : State) op rest, s.seq = op :: rest → P s → P (s.micro op rest).1) {s : State} (h : P s) : P s.advance :=
  State.advanceFor_keeps hm _ s h

/-- A micro-operation leaves the parameters alone. -/
theorem State.micro_cfg (s : State) (op : SeqOp) (rest : List SeqOp) : (s.micro op rest).1.cfg = s.cfg := by
  cases op with
  | poll => simp only [State.micro]; split <;> rfl
  | pollBounded n => cases n <;> simp only [State.micro] <;> first | rfl | (split <;> rfl)
  | fb f =>
    have h := State.doFb_sameButFb s f
    rw [State.sameButFb] at h
    simp only [State.micro, State.tick_cfg]
    rw [h]
  | _ => rfl

/-- A micro-operation that does not end the step leaves less to do. -/
theorem State.micro_work {s s' : State} {op : SeqOp} {rest : List SeqOp} (h : s.micro op rest = (s', false)) :
    seqWork s.cfg s'.seq + 1 ≤ seqWork s.cfg (op :: rest) := by
  have hw := SeqOp.work_pos s.cfg op
  cases op with
  | poll =>
    simp only [State.micro] at h
    split at h
    · cases h
    · cases h; simp [SeqOp.work, Nat.add_comm]
  | pollBounded n =>
    cases n with
    | zero => simp only [State.micro] at h; cases h; simp [SeqOp.work]; omega
    | succ n =>
      simp only [State.micro] at h
      split at h
      · cases h; simp [SeqOp.work]
      · cases h; simp [SeqOp.work]; omega
  | wire b p =>
    simp only [State.micro] at h
    cases h
    simp [SeqOp.work, seqWork_plain _ (wireOps_plain s.cfg b p)]
  | finish c => simp only [State.micro] at h; cases h; simp [SeqOp.work]
  | finishIdle => simp only [State.micro] at h; cases h; simp [SeqOp.work]
  | _ => simp only [State.micro] at h; cases h; simp [SeqOp.work, Nat.add_comm]

/-- The three ways a step leaves an operation: it has finished, an input is due, or an unbounded wait has just sampled a busy
panel. -/
def Stopped (t : State) : Prop := t.seq = [] ∨ t.inputDue = true ∨ ∃ rest, t.seq = .poll :: rest ∧ t.trace.head? = some (.sample true)

theorem State.advanceFor_stops (n : Nat) : ∀ s : State, seqWork s.cfg s.seq ≤ n → Stopped (s.advanceFor n) := by
  induction n with
  | zero =>
    intro s h
    left
    rw [State.advanceFor]
    cases hs : s.seq with
    | nil => rfl
    | cons op rest =>
      have := SeqOp.work_pos s.cfg op
      rw [hs, seqWork_cons] at h
      omega
  | succ n ih =>
    intro s h
    rw [State.advanceFor]
    split
    · rename_i hseq; exact Or.inl hseq
    · rename_i op rest hseq
      split
      · rename_i hd; exact Or.inr (Or.inl hd)
      · split
        · rename_i s' heq
          right; right
          cases op with
          | poll =>
            simp only [State.micro] at heq
            split at heq
            · rename_i hb; cases heq; exact ⟨rest, rfl, by simp [State.sample, hb]⟩
            · cases heq
          | pollBounded k =>
            cases k with
            | zero => simp only [State.micro] at heq; cases heq
            | succ k => simp only [State.micro] at heq; split at heq <;> cases heq
          | _ => simp only [State.micro] at heq; cases heq
        · rename_i s' heq
          have hw := State.micro_work heq
          have hc := State.micro_cfg s op rest
          rw [heq] at hc
          rw [hseq] at h
          exact ih s' (by rw [hc]; omega)

/-- The bound on a step is never what ends it. -/
theorem State.advance_stops (s : State) : Stopped s.advance := State.advanceFor_stops _ s (Nat.le_refl _)

/-- Drives and delays in a quiet state: their events are emitted, and the operation goes on with what follows. -/
theorem State.advanceFor_plain (l rest : List SeqOp) (n : Nat) (hl : Plain l) :
    ∀ s : State, s.host = [] →
      State.advanceFor (l.length + n) { s with seq := l ++ rest }
        = State.advanceFor n { Safety.emitted s (eventsOf l) with seq := rest } := by
  induction l with
  | nil => intro s _; simp [Safety.emitted, eventsOf]
  | cons op l ih =>
    intro s hs
    have hl' : Plain l := fun o ho => hl o (by simp [ho])
    have h1 := hl op (by simp)
    have hn : (op :: l).length + n = (l.length + n) + 1 := by simp; omega
    rw [hn, State.advanceFor]
    cases op with
    | drive pin v =>
      have h2 := ih hl' (s.drive pin v) hs
      simp only [List.cons_append, State.inputDue, hs, Bool.false_eq_true, if_false, State.micro, State.tick, State.drive,
        tickArrivals] at h2 ⊢
      rw [h2]
      simp [Safety.emitted, eventsOf, SeqOp.event, Pins.onEvent, hs]
    | delay ms =>
      have h2 := ih hl' (s.delay ms) hs
      simp only [List.cons_append, State.inputDue, hs, Bool.false_eq_true, if_false, State.micro, State.tick, State.delay,
        tickArrivals] at h2 ⊢
      rw [h2]
      simp [Safety.emitted, eventsOf, SeqOp.event, Pins.onEvent, hs]
    | _ => simp [SeqOp.event] at h1

/-! ### One micro-operation after another, nothing arriving -/

/-- The state with the operation's own fields replaced: BUSYOP and what is left to do. -/
def State.running (s : State) (b : Bool) (q : List SeqOp) : State := { s with busyOp := b, seq := q }

theorem State.accept_eq (s : State) (prog : List SeqOp) : s.accept prog = s.running true prog := rfl

theorem State.emitWire_eq (s : State) (op : Byte) (p : List Byte) :
    s.emitWire op p = (s.running s.busyOp (emit s.cfg op p ++ s.seq)).advance := rfl

theorem State.sendWire_eq (s : State) (op : Byte) (p : List Byte) :
    s.sendWire op p = (s.running s.busyOp (hostSend s.cfg op p ++ s.seq)).advance := rfl

theorem State.advance_nil (s : State) (b : Bool) : (s.running b []).advance = s.running b [] := rfl

theorem State.advance_plain (s : State) (hs : s.host = []) (b : Bool) {l : List SeqOp} (hl : Plain l) (rest : List SeqOp) :
    (s.running b (l ++ rest)).advance = ((Safety.emitted s (eventsOf l)).running b rest).advance := by
  rw [State.advance, State.advance]
  show State.advanceFor (seqWork s.cfg (l ++ rest)) _ = State.advanceFor (seqWork s.cfg rest) _
  rw [seqWork_append, seqWork_plain _ hl]
  exact State.advanceFor_plain l rest _ hl { s with busyOp := b } hs

theorem State.advance_delay (s : State) (hs : s.host = []) (b : Bool) (ms : Nat) (rest : List SeqOp) :
    (s.running b (.delay ms :: rest)).advance = ((s.delay ms).running b rest).advance :=
  State.advance_plain s hs b (l := [.delay ms]) (Plain.cons rfl fun _ h => nomatch h) rest

/-- A wire command: its frames are emitted, and the operation goes on. -/
theorem State.advance_wire (s : State) (hs : s.host = []) (b : Bool) (op : Byte) (p : List Byte) (rest : List SeqOp) :
    (s.running b (.wire op p :: rest)).advance =
      ((Safety.emitted s (eventsOf (wireOps s.cfg op p))).running b rest).advance := by
  rw [← State.advance_plain s hs b (wireOps_plain s.cfg op p) rest, State.advance, State.advance]
  show State.advanceFor (seqWork s.cfg (.wire op p :: rest)) _ = State.advanceFor (seqWork s.cfg (wireOps s.cfg op p ++ rest)) _
  rw [seqWork_cons, seqWork_append, seqWork_plain _ (wireOps_plain s.cfg op p), SeqOp.work, Nat.add_right_comm, State.advanceFor]
  simp only [State.running, State.inputDue, hs, Bool.false_eq_true, if_false, State.micro]

theorem State.advance_setPState (s : State) (hs : s.host = []) (b : Bool) (p : PState) (rest : List SeqOp) :
    (s.running b (.setPState p :: rest)).advance = (State.running { s with pstate := p } b rest).advance := by
  rw [State.advance, State.advance]
  show State.advanceFor (seqWork s.cfg (.setPState p :: rest)) _ = State.advanceFor (seqWork s.cfg rest) _
  rw [seqWork_cons, SeqOp.work, Nat.add_comm, State.advanceFor]
  simp only [State.running, State.inputDue, hs, Bool.false_eq_true, if_false, State.micro, State.tick, tickArrivals]

/-- A wait that samples not-busy is over; the operation goes on. -/
theorem State.advance_poll (s : State) (hs : s.host = []) (hb : s.busyAt 0 = false) (b : Bool) (rest : List SeqOp) :
    (s.running b (.poll :: rest)).advance = (s.sample.running b rest).advance := by
  rw [State.advance, State.advance]
  show State.advanceFor (seqWork s.cfg (.poll :: rest)) _ = State.advanceFor (seqWork s.cfg rest) _
  rw [seqWork_cons, SeqOp.work, Nat.add_comm, State.advanceFor]
  have hb' : State.busyAt { s with busyOp := b, seq := SeqOp.poll :: rest, host := [] } 0 = false := hb
  simp only [State.running, State.inputDue, hs, Bool.false_eq_true, if_false, State.micro, State.tick, tickArrivals, hb']
  simp only [State.sample, hs, hb, hb']

/-- A wait that samples busy ends the step, the wait still ahead. -/
theorem State.advance_poll_busy (s : State) (hs : s.host = []) (hb : s.busyAt 0 = true) (b : Bool) (rest : List SeqOp) :
    (s.running b (.poll :: rest)).advance = s.sample.running b (.poll :: rest) := by
  rw [State.advance]
  show State.advanceFor (seqWork s.cfg (.poll :: rest)) _ = _
  rw [seqWork_cons, SeqOp.work, Nat.add_comm, State.advanceFor]
  have hb' : State.busyAt { s with busyOp := b, seq := SeqOp.poll :: rest, host := [] } 0 = true := hb
  simp only [State.running, State.inputDue, hs, Bool.false_eq_true, if_false, if_true, State.micro, State.tick, tickArrivals,
    hb']
  simp only [State.sample, hs, hb, hb']

/-- A bounded wait with no sample left times out. -/
theorem State.advance_pollBounded_zero (s : State) (hs : s.host = []) (b : Bool) (rest : List SeqOp) :
    (s.running b (.pollBounded 0 :: rest)).advance = s.finish .etimeout := by
  rw [State.advance]
  show State.advanceFor (0 + 3 + seqWork s.cfg rest) _ = _
  rw [show 0 + 3 + seqWork s.cfg rest = (seqWork s.cfg rest + 2) + 1 by omega, State.advanceFor]
  simp only [State.running, State.inputDue, hs, Bool.false_eq_true, if_false, State.micro, State.tick, tickArrivals]
  rw [State.advanceFor_idle _ rfl]
  simp [State.finish, hs]

/-- A bounded wait that samples busy has one sample fewer left. -/
theorem State.advance_pollBounded_busy (s : State) (hs : s.host = []) (hb : s.busyAt 0 = true) (b : Bool) (n : Nat)
    (rest : List SeqOp) :
    (s.running b (.pollBounded (n + 1) :: rest)).advance = (s.sample.running b (.pollBounded n :: rest)).advance := by
  rw [State.advance, State.advance]
  show State.advanceFor (n + 1 + 3 + seqWork s.cfg rest) _ = State.advanceFor (n + 3 + seqWork s.cfg rest) _
  rw [show n + 1 + 3 + seqWork s.cfg rest = (n + 3 + seqWork s.cfg rest) + 1 by omega, State.advanceFor]
  have hb' : State.busyAt { s with busyOp := b, seq := SeqOp.pollBounded (n + 1) :: rest, host := [] } 0 = true := hb
  simp only [State.running, State.inputDue, hs, Bool.false_eq_true, if_false, if_true, State.micro, State.tick, tickArrivals,
    hb']
  simp only [State.sample, hs, hb, hb']

theorem State.advance_finish (s : State) (hs : s.host = []) (b : Bool) (code : Err) (rest : List SeqOp) :
    (s.running b (.finish code :: rest)).advance = s.finish code := by
  rw [State.advance]
  show State.advanceFor (seqWork s.cfg (.finish code :: rest)) _ = _
  rw [seqWork_cons, SeqOp.work, Nat.add_comm, State.advanceFor]
  simp only [State.running, State.inputDue, hs, Bool.false_eq_true, if_false, State.micro, State.tick, tickArrivals]
  rw [State.advanceFor_idle _ rfl]
  simp [State.finish, hs]

theorem State.advance_finishIdle (s : State) (hs : s.host = []) (b : Bool) (rest : List SeqOp) :
    (s.running b (.finishIdle :: rest)).advance = ({ s with pstate := .idle } : State).finish .ok := by
  rw [State.advance]
  show State.advanceFor (seqWork s.cfg (.finishIdle :: rest)) _ = _
  rw [seqWork_cons, SeqOp.work, Nat.add_comm, State.advanceFor]
  simp only [State.running, State.inputDue, hs, Bool.false_eq_true, if_false, State.micro, State.tick, tickArrivals]
  rw [State.advanceFor_idle _ rfl]
  simp [State.finish]

/-- A bounded wait that samples not-busy: the settle delay, and the operation is over. -/
theorem State.advance_pollBounded (s : State) (hs : s.host = []) (hb : s.busyAt 0 = false) (b : Bool) (n : Nat)
    (rest : List SeqOp) :
    (s.running b (.pollBounded (n + 1) :: rest)).advance = (s.sample.delay s.cfg.tSettleMs).finish .ok := by
  rw [State.advance]
  show State.advanceFor (n + 1 + 3 + seqWork s.cfg rest) _ = _
  rw [show n + 1 + 3 + seqWork s.cfg rest = (n + 1 + seqWork s.cfg rest) + 1 + 1 + 1 by omega, State.advanceFor]
  have hb' : State.busyAt { s with busyOp := b, seq := SeqOp.pollBounded (n + 1) :: rest, host := [] } 0 = false := hb
  simp only [State.running, State.inputDue, hs, Bool.false_eq_true, if_false, State.micro, State.tick, tickArrivals, hb']
  rw [State.advanceFor]
  simp only [State.inputDue, hs, State.sample, Bool.false_eq_true, if_false, State.micro, State.tick, tickArrivals]
  rw [State.advanceFor]
  simp only [State.inputDue, State.delay, Bool.false_eq_true, if_false, State.micro, State.tick, tickArrivals]
  rw [State.advanceFor_idle _ rfl]
  simp [State.finish, hb, hb']

/-- Where an input is due nothing of the operation runs before it. -/
theorem State.advance_due {s : State} (h : s.inputDue = true) : s.advance = s := by
  rw [State.advance]
  cases seqWork s.cfg s.seq with
  | zero => rfl
  | succ n =>
    rw [State.advanceFor]
    split
    · rfl
    · rw [if_pos h]

/-- What the panel presents at a sample, seen from one sample later. -/
theorem State.busyAt_sample (s : State) (k : Nat) : s.sample.busyAt k = s.busyAt (k + 1) := by
  simp only [State.busyAt, State.busyLevelAt, State.sample]
  congr 1
  rw [show s.samples + 1 + k = s.samples + (k + 1) by omega]
  cases s.busyIn <;> simp

end Sys2Proof.Machine
end

