-- ==== Sys2Proof/Laws/FrameBuffer.lean ====
section
/-! SUPPORT. What the compositor's shared operations do, pixel by pixel and bit by bit, and what running one as an operation comes to. -/

namespace Sys2Proof.Machine

open Sys2Proof.Safety

/-! ### The compositor does not look at the running operation -/

theorem State.fbModify_running (s : State) (b : Bool) (q : List SeqOp) (p c : Int) (f : Byte → Byte) :
    (s.running b q).fbModify p c f = (s.fbModify p c f).running b q := by
  simp only [State.fbModify]; split <;> rfl

theorem forRange_running {b : Bool} {q : List SeqOp} {body : Int → State → State}
    (h : ∀ i s, body i (State.running s b q) = (body i s).running b q) (n : Nat) :
    ∀ lo s, forRange lo n body (State.running s b q) = (forRange lo n body s).running b q := by
  induction n with
  | zero => intro lo s; rfl
  | succ n ih => intro lo s; simp only [forRange, h, ih]

theorem State.forPixels_running (s : State) (b : Bool) (q : List SeqOp) (x y : Int) (w h : Nat) (f : Nat → Byte → Byte) :
    (s.running b q).forPixels x y w h f = (s.forPixels x y w h f).running b q := by
  simp only [State.forPixels]
  refine forRange_running (fun Y s => forRange_running (fun X s => ?_) _ _ _) _ _ _
  split
  · exact State.fbModify_running _ _ _ _ _ _
  · rfl

theorem State.doFb_running (s : State) (b : Bool) (q : List SeqOp) (op : FbOp) :
    (s.running b q).doFb op = (s.doFb op).running b q := by
  cases op with
  | clear => simp only [State.doFb, State.clearAll, State.running]
  | reverse => simp only [State.doFb, State.reverseAll, State.running]; simp only [State.fbCell]
  | clearArea x y w h => simp only [State.doFb, State.clearAreaBody, State.forPixels_running]
  | reverseArea x y w h => simp only [State.doFb, State.reverseAreaBody, State.forPixels_running]
  | read c p => simp only [State.doFb, State.readBody, State.running]; rfl
  | plot x y w h bitmap =>
    simp only [State.doFb, State.plotBody]
    rw [State.clearAreaBody, State.forPixels_running]
    refine forRange_running (fun j s => forRange_running (fun i s => ?_) _ _ _) _ _ _
    simp only [State.orStripByte, State.fbModify_running]

/-- An accepted compositing operation in a quiet state: its frame-buffer part, then Finish(OK). -/
theorem State.advance_fb (s : State) (hq : Quiet s) (op : FbOp) :
    (s.accept [.fb op, .finish .ok]).advance = done (s.doFb op) .ok := by
  have h : s.host = [] := hq
  have hh : (s.doFb op).host = [] := by
    have := State.doFb_sameButFb s op
    rw [State.sameButFb] at this
    rw [this]
    exact h
  have h2 : s.inputDue = false := by simp [State.inputDue, h]
  rw [State.advance]
  show State.advanceFor 2 (s.running true [.fb op, .finish .ok]) = _
  rw [State.advanceFor]
  show (if s.inputDue = true then _ else _) = _
  rw [h2]
  simp only [Bool.false_eq_true, if_false, State.micro]
  rw [State.doFb_running]
  simp only [State.tick, State.running, hh, tickArrivals, State.advanceFor, State.inputDue, State.micro, Bool.false_eq_true,
    if_false, State.finish]
  simp [done, hh]

/-! ### Pixels -/

/-- All a read-modify-write of one pixel's byte does to a pixel, when it changes one bit. -/
theorem State.pixel_fbModify (s : State) {X Y X0 Y0 : Int} (f : Byte → Byte) (h : inPix X0 Y0 = true) (g : Bool → Bool)
    (hf : ∀ v i, i < 8 → (f v).getLsbD i = if i = bitPosOf Y then g (v.getLsbD i) else v.getLsbD i) :
    pixel (s.fbModify (pageOf Y) X f) X0 Y0 = if X0 = X ∧ Y0 = Y then g (pixel s X0 Y0) else pixel s X0 Y0 := by
  simp only [inPix, Bool.and_eq_true, decide_eq_true_eq] at h
  have hfb : inFB (pageOf Y0) X0 = true := by
    rw [inFB_iff, pageOf, devRow, Int.fdiv_eq_ediv_of_nonneg _ (by decide)]
    omega
  have hb : bitPosOf Y0 < 8 := by
    rw [bitPosOf, devRow, Int.fmod_eq_emod_of_nonneg _ (by decide)]
    omega
  rw [pixel, pixel, State.fbByte_fbModify _ _ _ _ hfb]
  by_cases e : pageOf Y0 = pageOf Y ∧ X0 = X
  · rw [if_pos e, hf _ _ hb]
    by_cases e2 : bitPosOf Y0 = bitPosOf Y
    · have hy : Y0 = Y := by
        have e1 := e.1
        simp only [pageOf, devRow] at e1
        simp only [bitPosOf, devRow] at e2
        rw [Int.fdiv_eq_ediv_of_nonneg _ (by decide), Int.fdiv_eq_ediv_of_nonneg _ (by decide)] at e1
        rw [Int.fmod_eq_emod_of_nonneg _ (by decide), Int.fmod_eq_emod_of_nonneg _ (by decide)] at e2
        omega
      rw [if_pos e2, if_pos ⟨e.2, hy⟩, e.1, e.2]
    · rw [if_neg e2, if_neg, e.1, e.2]
      rintro ⟨_, rfl⟩
      exact e2 rfl
  · rw [if_neg e, if_neg]
    rintro ⟨rfl, rfl⟩
    exact e ⟨rfl, rfl⟩

/-- One row of the loops of `forPixels`. -/
theorem pixel_forRow (f : Nat → Byte → Byte) (g : Bool → Bool)
    (hf : ∀ k v i, i < 8 → (f k v).getLsbD i = if i = k then g (v.getLsbD i) else v.getLsbD i) (Y : Int) {X0 Y0 : Int}
    (h0 : inPix X0 Y0 = true) (w : Nat) :
    ∀ (x : Int) (s : State),
      pixel (forRange x w (fun X s => if inPix X Y then s.fbModify (pageOf Y) X (f (bitPosOf Y)) else s) s) X0 Y0 =
        if Y0 = Y ∧ x ≤ X0 ∧ X0 < x + w then g (pixel s X0 Y0) else pixel s X0 Y0 := by
  induction w with
  | zero => intro x s; rw [forRange, if_neg]; omega
  | succ w ih =>
    intro x s
    rw [forRange, ih]
    have hbody : pixel (if inPix x Y then s.fbModify (pageOf Y) x (f (bitPosOf Y)) else s) X0 Y0 =
        if X0 = x ∧ Y0 = Y then g (pixel s X0 Y0) else pixel s X0 Y0 := by
      by_cases hx : inPix x Y = true
      · rw [if_pos hx, State.pixel_fbModify s _ h0 g fun v i hi => hf _ v i hi]
      · rw [if_neg hx, if_neg]
        rintro ⟨rfl, rfl⟩
        exact hx h0
    rw [hbody]
    by_cases h1 : Y0 = Y ∧ x + 1 ≤ X0 ∧ X0 < x + 1 + w
    · rw [if_pos h1, if_neg (by omega), if_pos (by push_cast; omega)]
    · rw [if_neg h1]
      by_cases h2 : X0 = x ∧ Y0 = Y
      · rw [if_pos h2, if_pos (by push_cast; omega)]
      · rw [if_neg h2, if_neg (by push_cast; omega)]

/-- All `forPixels` does to a pixel of the window: the change, once, where the rectangle holds the pixel. -/
theorem State.pixel_forPixels (f : Nat → Byte → Byte) (g : Bool → Bool)
    (hf : ∀ k v i, i < 8 → (f k v).getLsbD i = if i = k then g (v.getLsbD i) else v.getLsbD i) {X0 Y0 : Int}
    (h0 : inPix X0 Y0 = true) (x : Int) (w h : Nat) :
    ∀ (y : Int) (s : State),
      pixel (s.forPixels x y w h f) X0 Y0 = if inRect x y w h X0 Y0 then g (pixel s X0 Y0) else pixel s X0 Y0 := by
  simp only [State.forPixels]
  induction h with
  | zero =>
    intro y s
    rw [forRange, if_neg]
    simp only [inRect, Bool.and_eq_true, decide_eq_true_eq]
    omega
  | succ h ih =>
    intro y s
    rw [forRange, ih, pixel_forRow f g hf y h0]
    simp only [inRect, Bool.and_eq_true, decide_eq_true_eq]
    push_cast
    by_cases h1 : ((x ≤ X0 ∧ X0 < x + w) ∧ y + 1 ≤ Y0) ∧ Y0 < y + 1 + h
    · rw [if_pos h1, if_neg (by omega), if_pos (by omega)]
    · rw [if_neg h1]
      split
      · rw [if_pos (by omega)]
      · rw [if_neg (by omega)]

/-! ### Strips -/

theorem shl8_bit (v : Byte) {k i : Nat} (hi : i < 8) :
    (shl8 v k).getLsbD i = true ↔ ∃ m < 8, m + k = i ∧ v.getLsbD m = true := by
  simp only [shl8, BitVec.getLsbD_shiftLeft]
  constructor
  · intro h
    simp only [hi, decide_true, Bool.true_and, Bool.and_eq_true, Bool.not_eq_true', decide_eq_false_iff_not] at h
    exact ⟨i - k, by omega, by omega, h.2⟩
  · rintro ⟨m, -, h2, h3⟩
    subst h2
    simp [hi, h3]

theorem shr8_bit (v : Byte) {k i : Nat} :
    (shr8 v k).getLsbD i = true ↔ ∃ m < 8, m = i + k ∧ v.getLsbD m = true := by
  simp only [shr8, BitVec.getLsbD_ushiftRight]
  constructor
  · intro h
    refine ⟨i + k, ?_, rfl, by rw [Nat.add_comm]; exact h⟩
    by_contra hc
    rw [BitVec.getLsbD_of_ge _ _ (by omega)] at h
    cases h
  · rintro ⟨m, -, h2, h3⟩
    subst h2
    rw [Nat.add_comm]
    exact h3

/-- All the two writes of a strip byte do to a bit of the window: bit k goes k + shift bits up from the bottom of
page − j, or, past its top, to page − j − 1. -/
theorem State.orStripByte_bit (s : State) {page shift : Int} (j c0 : Int) (v : Byte) (hs : 0 ≤ shift ∧ shift ≤ 8) {p c : Int} {b : Nat}
    (hp : inFB p c = true) (hb : b < 8) :
    ((s.orStripByte page shift j c0 v).fbByte p c).getLsbD b = true ↔
      (s.fbByte p c).getLsbD b = true ∨
        (c = c0 ∧ ∃ k : Nat, k < 8 ∧ v.getLsbD k = true ∧
          ((p = page - j ∧ (k : Int) + shift = b) ∨ (p = page - j - 1 ∧ (k : Int) = b + (8 - shift)))) := by
  simp only [State.orStripByte]
  rw [State.fbByte_fbModify _ _ _ _ hp]
  by_cases h1 : p = page - j - 1 ∧ c = c0
  · obtain ⟨rfl, rfl⟩ := h1
    rw [if_pos ⟨rfl, rfl⟩, State.fbByte_fbModify _ _ _ _ hp, if_neg (by omega), BitVec.getLsbD_or, Bool.or_eq_true, shr8_bit]
    constructor
    · rintro (h | ⟨m, h1, h2, h3⟩)
      · exact .inl h
      · exact .inr ⟨rfl, m, h1, h3, .inr ⟨rfl, by omega⟩⟩
    · rintro (h | ⟨-, m, h1, h3, h | ⟨-, h⟩⟩)
      · exact .inl h
      · omega
      · exact .inr ⟨m, h1, by omega, h3⟩
  · rw [if_neg h1, State.fbByte_fbModify _ _ _ _ hp]
    by_cases h2 : p = page - j ∧ c = c0
    · rw [if_pos h2, BitVec.getLsbD_or, Bool.or_eq_true, shl8_bit _ hb, h2.1, h2.2]
      constructor
      · rintro (h | ⟨m, h1, h2, h3⟩)
        · exact .inl h
        · exact .inr ⟨rfl, m, h1, h3, .inl ⟨rfl, by omega⟩⟩
      · rintro (h | ⟨-, m, h1, h3, h | ⟨h, -⟩⟩)
        · exact .inl h
        · exact .inr ⟨m, h1, by omega, h3⟩
        · omega
    · rw [if_neg h2]
      constructor
      · exact .inl
      · rintro (h | ⟨h, m, -, -, h' | h'⟩)
        · exact h
        · exact absurd ⟨h'.1, h⟩ h2
        · exact absurd ⟨h'.1, h⟩ h1

/-- A bit that every pass of a loop only sets is set after the loop when it was set before it or by some pass. -/
theorem forRange_sets {body : Int → State → State} {Q : Int → Prop} {p c : Int} {b : Nat}
    (hb : ∀ i s, ((body i s).fbByte p c).getLsbD b = true ↔ (State.fbByte s p c).getLsbD b = true ∨ Q i) (n : Nat) :
    ∀ lo s, ((forRange lo n body s).fbByte p c).getLsbD b = true ↔
      (State.fbByte s p c).getLsbD b = true ∨ ∃ m : Nat, m < n ∧ Q (lo + m) := by
  induction n with
  | zero => intro lo s; simp [forRange]
  | succ n ih =>
    intro lo s
    rw [forRange, ih, hb, or_assoc]
    apply or_congr Iff.rfl
    constructor
    · rintro (h | ⟨m, h1, h2⟩)
      · exact ⟨0, by omega, by simpa using h⟩
      · exact ⟨m + 1, by omega, by push_cast; rw [show lo + ((m : Int) + 1) = lo + 1 + m by ring]; exact h2⟩
    · rintro ⟨m, h1, h2⟩
      cases m with
      | zero => left; simpa using h2
      | succ m =>
        right
        push_cast at h2
        rw [show lo + ((m : Int) + 1) = lo + 1 + m by ring] at h2
        exact ⟨m, by omega, h2⟩

end Sys2Proof.Machine
end

