-- ==== Sys2Proof/Laws/PerInstr.lean ====
section
/-! SUPPORT. What is said of every instruction as syntax, one lemma per constructor. -/

namespace Sys2Proof.Laws

/-- The OP field of a descriptor made from its fields. -/
theorem fieldOp_mkDesc (op : HostOp) (a b : Half) (w h : Byte) : fieldOp (mkDesc op a b w h) = hostCode op := by
  rw [fieldOp, mkDesc]
  exact BitVec.extractLsb'_append_eq_right

theorem getLsbD_mkDesc (op : HostOp) (a b : Half) (w h : Byte) (k : Nat) :
    (mkDesc op a b w h).getLsbD k =
      BitVec.getLsbD (w := 8 + 8 + 8 + 16 + 16 + 4 + 4) (0#8 ++ h ++ w ++ b ++ a ++ 0#4 ++ hostCode op) k := rfl

/-- The reserved field RSV0 of a descriptor made from its fields is 0 (30_encoding.md R71). -/
theorem rsv0_mkDesc (op : HostOp) (a b : Half) (w h : Byte) : (mkDesc op a b w h).extractLsb' 4 4 = 0#4 := by
  apply BitVec.eq_of_getLsbD_eq
  intro i hi
  rw [BitVec.getLsbD_extractLsb', getLsbD_mkDesc, BitVec.getLsbD_append, BitVec.getLsbD_append, if_neg (by omega), if_pos (by omega)]
  simp

/-- The reserved field RSV1 of a descriptor made from its fields is 0 (30_encoding.md R71). -/
theorem rsv1_mkDesc (op : HostOp) (a b : Half) (w h : Byte) : (mkDesc op a b w h).extractLsb' 56 8 = 0#8 := by
  apply BitVec.eq_of_getLsbD_eq
  intro i hi
  rw [BitVec.getLsbD_extractLsb', getLsbD_mkDesc]
  simp only [BitVec.getLsbD_append]
  repeat rw [if_neg (by omega)]
  simp

/-- The encoding names a listed operation and sets no reserved field: a host descriptor has an OP value of
30_encoding.md R72 and zeros in RSV0 and RSV1 (R71), a wire command has a byte of the table of R80. -/
def EncodingIsListed.Statement (i : Instr) : Prop :=
  match encode i with
  | .host d _ =>
    1 ≤ (fieldOp d).toNat ∧ (fieldOp d).toNat ≤ 12 ∧ d.extractLsb' 4 4 = 0#4 ∧ d.extractLsb' 56 8 = 0#8
  | .wire op _ => listedWireByte op = true

/-- A host descriptor made from its fields names a listed operation and sets no reserved field. -/
theorem mkDesc_listed (op : HostOp) (a b : Half) (w h : Byte) :
    1 ≤ (fieldOp (mkDesc op a b w h)).toNat ∧ (fieldOp (mkDesc op a b w h)).toNat ≤ 12 ∧
      (mkDesc op a b w h).extractLsb' 4 4 = 0#4 ∧ (mkDesc op a b w h).extractLsb' 56 8 = 0#8 := by
  rw [fieldOp_mkDesc, rsv0_mkDesc, rsv1_mkDesc]
  cases op <;> decide

theorem EncodingIsListed.clear (st : List Byte) : EncodingIsListed.Statement (.clear st) := mkDesc_listed _ _ _ _ _

theorem EncodingIsListed.clearArea (x y : Half) (w h : Byte) (st : List Byte) :
    EncodingIsListed.Statement (.clearArea x y w h st) := mkDesc_listed _ _ _ _ _

theorem EncodingIsListed.reverse (st : List Byte) : EncodingIsListed.Statement (.reverse st) := mkDesc_listed _ _ _ _ _

theorem EncodingIsListed.reverseArea (x y : Half) (w h : Byte) (st : List Byte) :
    EncodingIsListed.Statement (.reverseArea x y w h st) := mkDesc_listed _ _ _ _ _

theorem EncodingIsListed.plotImage (x y : Half) (w h : Byte) (st : List Byte) :
    EncodingIsListed.Statement (.plotImage x y w h st) := mkDesc_listed _ _ _ _ _

theorem EncodingIsListed.wrCmd (b : Byte) (st : List Byte) : EncodingIsListed.Statement (.wrCmd b st) := mkDesc_listed _ _ _ _ _

theorem EncodingIsListed.wrData (n : Half) (st : List Byte) : EncodingIsListed.Statement (.wrData n st) := mkDesc_listed _ _ _ _ _

theorem EncodingIsListed.waitBusy (st : List Byte) : EncodingIsListed.Statement (.waitBusy st) := mkDesc_listed _ _ _ _ _

theorem EncodingIsListed.init (st : List Byte) : EncodingIsListed.Statement (.init st) := mkDesc_listed _ _ _ _ _

theorem EncodingIsListed.update (st : List Byte) : EncodingIsListed.Statement (.update st) := mkDesc_listed _ _ _ _ _

theorem EncodingIsListed.readFb (c p : Half) (st : List Byte) : EncodingIsListed.Statement (.readFb c p st) :=
  mkDesc_listed _ _ _ _ _

theorem EncodingIsListed.waitBusyB (l : Half) (st : List Byte) : EncodingIsListed.Statement (.waitBusyB l st) :=
  mkDesc_listed _ _ _ _ _

theorem EncodingIsListed.swReset (p : List Byte) : EncodingIsListed.Statement (.swReset p) := rfl

theorem EncodingIsListed.drvOut (p : List Byte) : EncodingIsListed.Statement (.drvOut p) := rfl

theorem EncodingIsListed.dataEntry (p : List Byte) : EncodingIsListed.Statement (.dataEntry p) := rfl

theorem EncodingIsListed.ramXWindow (p : List Byte) : EncodingIsListed.Statement (.ramXWindow p) := rfl

theorem EncodingIsListed.ramYWindow (p : List Byte) : EncodingIsListed.Statement (.ramYWindow p) := rfl

theorem EncodingIsListed.borderWaveform (p : List Byte) : EncodingIsListed.Statement (.borderWaveform p) := rfl

theorem EncodingIsListed.vcom (p : List Byte) : EncodingIsListed.Statement (.vcom p) := rfl

theorem EncodingIsListed.gateVoltage (p : List Byte) : EncodingIsListed.Statement (.gateVoltage p) := rfl

theorem EncodingIsListed.sourceVoltage (p : List Byte) : EncodingIsListed.Statement (.sourceVoltage p) := rfl

theorem EncodingIsListed.lutWrite (p : List Byte) : EncodingIsListed.Statement (.lutWrite p) := rfl

theorem EncodingIsListed.writeRamBw (p : List Byte) : EncodingIsListed.Statement (.writeRamBw p) := rfl

theorem EncodingIsListed.updateControl (p : List Byte) : EncodingIsListed.Statement (.updateControl p) := rfl

theorem EncodingIsListed.activateUpdate (p : List Byte) : EncodingIsListed.Statement (.activateUpdate p) := rfl

theorem EncodingIsListed.ramXCounter (p : List Byte) : EncodingIsListed.Statement (.ramXCounter p) := rfl

theorem EncodingIsListed.ramYCounter (p : List Byte) : EncodingIsListed.Statement (.ramYCounter p) := rfl

theorem EncodingIsListed.cursorColStart (p : List Byte) : EncodingIsListed.Statement (.cursorColStart p) := rfl

theorem EncodingIsListed.cursorLengthAlt01 (p : List Byte) : EncodingIsListed.Statement (.cursorLengthAlt01 p) := rfl

end Sys2Proof.Laws
end

