-- ==== Sys2Proof/Laws/Step.lean ====
section
/-! SUPPORT. What a meaning and a step can answer, said once. -/

namespace Sys2Proof.Machine

/-- The program a host operation runs when it is accepted, and the PSTATE it starts in; none for a wire command. -/
def launch (s : State) : Instr → Option (PState × List SeqOp)
  | .clear _ => some (s.pstate, [.fb .clear, .finish .ok])
  | .clearArea x y w h _ => some (s.pstate, [.fb (.clearArea (sext16 x) (sext16 y) (zext w) (zext h)), .finish .ok])
  | .reverse _ => some (s.pstate, [.fb .reverse, .finish .ok])
  | .reverseArea x y w h _ => some (s.pstate, [.fb (.reverseArea (sext16 x) (sext16 y) (zext w) (zext h)), .finish .ok])
  | .plotImage x y w h st => some (s.pstate, [.fb (.plot (sext16 x) (sext16 y) (zext w) (zext h) st), .finish .ok])
  | .wrCmd b _ => some (s.pstate, writeCommand s.cfg b ++ [.finish .ok])
  | .wrData _ st => some (s.pstate, writeData s.cfg st ++ [.finish .ok])
  | .waitBusy _ => some (s.pstate, waitBusyOps s.cfg ++ [.finish .ok])
  | .init _ => some (.uninit, initOps s.cfg)
  | .update _ => some (.transmitting, updateOps s.cfg s.fbStream)
  | .readFb c p _ => some (s.pstate, [.fb (.read (sext16 c) (sext16 p)), .finish .ok])
  | .waitBusyB l _ => some (s.pstate, [.pollBounded (zext l)])
  | .swReset _ | .drvOut _ | .dataEntry _ | .ramXWindow _ | .ramYWindow _ | .borderWaveform _ | .vcom _
  | .gateVoltage _ | .sourceVoltage _ | .lutWrite _ | .writeRamBw _ | .updateControl _ | .activateUpdate _
  | .ramXCounter _ | .ramYCounter _ | .cursorColStart _ | .cursorLengthAlt01 _ => none

/-- A host operation is rejected, with nothing but the code, or accepted and run. -/
theorem exec_host {s t : State} {i : Instr} {q : PState} {prog : List SeqOp} (hl : launch s i = some (q, prog))
    (h : exec i s = .next t) :
    (∃ e, t = s.raise e) ∨ t = ({ s with pstate := q }.accept prog).advance := by
  cases i <;> simp only [launch, Option.some.injEq, Prod.mk.injEq, reduceCtorEq] at hl <;> obtain ⟨rfl, rfl⟩ := hl <;>
    simp only [exec, execClear, execClearArea, execReverse, execReverseArea, execPlotImage, execReadFb, execWrCmd, execWrData,
      execWaitBusy, execWaitBusyB, execInit, execUpdate, State.issue, Host.Outcome.next.injEq] at h <;> subst h
  case waitBusyB =>
    split
    · split
      · exact Or.inr rfl
      · exact Or.inl ⟨_, rfl⟩
    · exact Or.inl ⟨_, rfl⟩
  case update =>
    split
    · split
      · exact Or.inr rfl
      · exact Or.inl ⟨_, rfl⟩
    · exact Or.inl ⟨_, rfl⟩
  all_goals
    split
    · exact Or.inr rfl
    · exact Or.inl ⟨_, rfl⟩

/-- A wire command is put on the wire, and what there is still to do goes on. -/
theorem exec_wire {b : Bool} {op : Byte} {p : List Byte} {i : Instr} (h : decode b (.wire op p) = .ok i) (s : State) :
    exec i s = .next (s.running s.busyOp (wireOps s.cfg op p ++ s.seq)).advance := by
  simp only [decode, decodeWire] at h
  have hop : ∀ n, op.toNat = n → op = BitVec.ofNat 8 n := fun n hn => by rw [← hn, BitVec.ofNat_toNat, BitVec.setWidth_eq]
  split at h
  case h_2 heq =>
    have := hop _ heq
    split at h
    · rename_i hp
      obtain ⟨v, rfl⟩ := List.length_eq_one_iff.1 hp
      cases h
      subst this
      rw [wireOps_of_not_hostOnly rfl, ← hostSend_singleton]
      rfl
    · cases h
      subst this
      rfl
  case h_17 => cases h
  all_goals
    rename_i heq
    have := hop _ heq
    cases h
    subst this
    rfl

/-- What the host decoder answers is a host operation. -/
theorem decodeHost_launch {b : Bool} {d : Desc} {st : List Byte} {i : Instr} (h : decode b (.host d st) = .ok i) (s : State) :
    ∃ q prog, launch s i = some (q, prog) := by
  simp only [decode, decodeHost] at h
  split at h
  · cases h
  · rename_i op _
    split at h
    · cases h; cases op <;> exact ⟨_, _, rfl⟩
    · cases h

/-- Where the sequencer stands at a wire command, resuming emits it and goes on. -/
theorem State.resume_wire (s : State) {op : Byte} {p : List Byte} {rest : List SeqOp} (h : s.seq = .wire op p :: rest) :
    s.resume = .next ((s.micro (.wire op p) rest).1.advance) ∨ s.resume = .next s.advance := by
  rw [State.resume, h]
  dsimp only
  split
  · rename_i i hi
    left
    rw [exec_wire hi]
    rfl
  · exact Or.inr rfl

/-- Resuming runs micro-operations of the running operation, and nothing else. -/
theorem State.resume_keeps {P : State → Prop}
    (hm : ∀ (s : State) op rest, s.seq = op :: rest → P s → P (s.micro op rest).1) {s t : State} (hs : P s)
    (h : s.resume = .next t) : P t := by
  by_cases hw : ∃ op p rest, s.seq = .wire op p :: rest
  · obtain ⟨op, p, rest, hseq⟩ := hw
    rcases State.resume_wire s hseq with h' | h' <;> rw [h', Host.Outcome.next.injEq] at h
    · exact h ▸ State.advance_keeps hm (hm s _ _ hseq hs)
    · exact h ▸ State.advance_keeps hm hs
  · rw [State.resume] at h
    split at h
    · rename_i op p rest hseq; exact absurd ⟨op, p, rest, hseq⟩ hw
    · rw [Host.Outcome.next.injEq] at h
      exact h ▸ State.advance_keeps hm hs

/-- What every step keeps: what is kept when an input leaves the queue, by each transaction, by a rejection and an acceptance
while nothing is marked as running, by a reset, and by every micro-operation. -/
theorem step_keeps {P : State → Prop}
    (hpop : ∀ (s : State) h, P s → P { s with host := h })
    (hreply : ∀ (s : State) r, P s → P { s with replies := r })
    (hovr : ∀ (s : State) b, P s → P { s with ovr := b })
    (hraise : ∀ (s : State) e, s.busyOp = false → P s → P (s.raise e))
    (haccept : ∀ (s : State) i q prog, s.busyOp = false → launch s i = some (q, prog) → P s →
      P ({ s with pstate := q }.accept prog))
    (hreset : ∀ s : State, P s → P s.blockReset)
    (hm : ∀ (s : State) op rest, s.seq = op :: rest → P s → P (s.micro op rest).1)
    {s t : State} (hs : P s) (h : step s = .next t) : P t := by
  rw [step] at h
  split at h
  · rename_i input s' heq
    have hs' : P s' := by
      rw [State.takeInput] at heq
      split at heq
      · cases heq
      · split at heq
        · cases heq; exact hpop _ _ hs
        · cases heq
    cases input with
    | readStatus => cases h; exact hreply _ _ hs'
    | readResult => cases h; exact hreply _ _ hs'
    | blockReset => cases h; exact hreset _ hs'
    | issue d st =>
      simp only [State.handleInput, State.handleIssue] at h
      split at h
      · cases h; exact hovr _ _ hs'
      · rename_i hb
        simp only [Bool.not_eq_true] at hb
        have hr : P s'.receiveIssue := hovr _ _ hs'
        split at h
        · rename_i i hi
          obtain ⟨q, prog, hl⟩ := decodeHost_launch hi s'.receiveIssue
          rcases exec_host hl h with ⟨e, rfl⟩ | rfl
          · exact hraise _ e hb hr
          · exact State.advance_keeps hm (haccept _ i q prog hb hl hr)
        · cases h; exact hraise _ _ hb hr
  · exact State.resume_keeps hm hs h

end Sys2Proof.Machine
end

