-- ==== Sys2Proof/Tests/Slice0.lean ====
section
/-! SUPPORT. The model's own tests: ill-formed terms, decoding of words written out from the spec, one-step tests from the spec's
vectors, and a witness for the hypotheses of every statement. -/

namespace Sys2Proof.Tests

open Sys2Proof.Machine Sys2Proof.Safety

/-! ### A small block to test -/

/-- Illustrative parameter values; INIT_FILL_COUNT is 2, to keep INIT short. -/
def cfg : Params where
  tSettleMs := 10
  tRstPreMs := 1
  tRstActiveMs := 2
  tRstPostMs := 3
  csActiveLevel := false
  dcCmdLevel := false
  resActiveLevel := false
  busyActiveLevel := true
  drvOut := #v[1, 2, 3]
  dataEntry := #v[4]
  winX := #v[5, 6]
  winY := #v[7, 8, 9, 10]
  border := #v[11]
  vcom := #v[12]
  gateV := #v[13]
  sourceV := #v[14, 15, 16]
  updMode := 17
  initFill := 0xFF
  initFillCount := 2
  updateSetCounters := false
  cntX := #v[18]
  cntY := #v[19, 20]
  dataFraming := .perPayload
  hasBoundedWait := true
  hostPortMap := 0

/-- A block after reset with these parameters, its transcript not yet begun. -/
def blk : State := { State.reset with cfg := cfg, pins := Pins.atReset cfg, trace := [] }

/-- The block with these cells of the frame buffer written. -/
def withCells (cells : List Host.Cell) : State := { blk with fb := cells }

/-- The block with these BUSY levels to come. -/
def withBusy (levels : List Level) : State := { blk with busyIn := levels }

/-- The block with these inputs to come. -/
def withHost (arrivals : List Arrival) : State := { blk with host := arrivals }

/-- The outcome is a next state of which `p` holds. -/
def ends (o : Host.Outcome State Fault Refusal) (p : State → Bool) : Bool :=
  match o with
  | .next t => p t
  | .fault _ => false
  | .refused _ => false

/-- The byte-level view of what a state has emitted, seen by a receiver that saw the reset levels. -/
def seen (t : State) : List Item := byteView t.cfg (.ofPins (Pins.atReset t.cfg)) t.trace.reverse

/-! ### Ill-formed terms -/

/-- 30_encoding.md R77 steps 3 and 4: each host operation with a stream of the wrong length, and a count of 0. -/
theorem test_wf_refuses_host :
    (Instr.clear [0]).wf = false ∧ (Instr.clearArea 0 0 1 1 [0]).wf = false ∧ (Instr.reverse [0]).wf = false ∧
      (Instr.reverseArea 0 0 1 1 [0]).wf = false ∧ (Instr.plotImage 0 0 2 9 [1, 2, 3]).wf = false ∧
      (Instr.wrCmd 0x12 [0]).wf = false ∧ (Instr.wrData 0 []).wf = false ∧ (Instr.wrData 2 [1]).wf = false ∧
      (Instr.waitBusy [0]).wf = false ∧ (Instr.init [0]).wf = false ∧ (Instr.update [0]).wf = false ∧
      (Instr.readFb 0 0 [0]).wf = false ∧ (Instr.waitBusyB 0 []).wf = false ∧ (Instr.waitBusyB 1 [0]).wf = false := by
  decide

/-- 30_encoding.md R80, R81: each wire command with a payload of the wrong length. -/
theorem test_wf_refuses_wire :
    (Instr.swReset [0]).wf = false ∧ (Instr.drvOut [0]).wf = false ∧ (Instr.dataEntry []).wf = false ∧
      (Instr.ramXWindow [0]).wf = false ∧ (Instr.ramYWindow [0, 0]).wf = false ∧ (Instr.borderWaveform []).wf = false ∧
      (Instr.vcom []).wf = false ∧ (Instr.gateVoltage []).wf = false ∧ (Instr.sourceVoltage [0]).wf = false ∧
      (Instr.lutWrite [0]).wf = false ∧ (Instr.updateControl []).wf = false ∧ (Instr.activateUpdate [0]).wf = false ∧
      (Instr.ramXCounter [0, 0]).wf = false ∧ (Instr.ramYCounter [0]).wf = false ∧ (Instr.cursorColStart []).wf = false ∧
      (Instr.cursorLengthAlt01 [1, 2, 3]).wf = false := by
  decide

theorem test_wf_accepts :
    (Instr.plotImage 0 0 2 9 [1, 2, 3, 4]).wf = true ∧ (Instr.wrData 2 [1, 2]).wf = true ∧ (Instr.drvOut [1, 2, 3]).wf = true ∧
      (Instr.writeRamBw [1, 2, 3, 4, 5]).wf = true := by
  decide

/-! ### Decoding words written out from the spec (30_encoding.md R71 to R76, 95_test_vectors.md) -/

/-- F0: the word is the OP value. -/
theorem test_decode_f0 :
    decode true (.host 0x0000000000000001#64 []) = .ok (.clear []) ∧
      decode true (.host 0x0000000000000003#64 []) = .ok (.reverse []) ∧
      decode true (.host 0x0000000000000008#64 []) = .ok (.waitBusy []) ∧
      decode true (.host 0x0000000000000009#64 []) = .ok (.init []) ∧
      decode true (.host 0x000000000000000A#64 []) = .ok (.update []) := by
  decide

/-- FA, with the words of V-F5, V-F8 and V-P14. -/
theorem test_decode_fa :
    decode true (.host 0x001414007C00F002#64 []) = .ok (.clearArea 240 124 20 20 []) ∧
      decode true (.host 0x000404007EFFFE04#64 []) = .ok (.reverseArea (BitVec.ofInt 16 (-2)) 126 4 4 []) ∧
      decode true (.host 0x000C020064000A05#64 [0xF0, 0x0F, 0xFF, 1]) = .ok (.plotImage 10 100 2 12 [0xF0, 0x0F, 0xFF, 1]) := by
  decide

/-- FC, FN, FR and FL, with the words of V-S2, V-S4, V-F12 and V-S9. -/
theorem test_decode_fc_fn_fr_fl :
    decode true (.host 0x0000000000001206#64 []) = .ok (.wrCmd 0x12 []) ∧
      decode true (.host 0x000000000000E007#64 []) = .ok (.wrData 224 []) ∧
      decode true (.host 0x000000000000F80B#64 []) = .ok (.readFb 248 0 []) ∧
      decode true (.host 0x000000001000000B#64 []) = .ok (.readFb 0 16 []) ∧
      decode true (.host 0x000000000000030C#64 []) = .ok (.waitBusyB 3 []) := by
  decide

/-- The wire bytes of 43_wire_commands.md R190 to R206. -/
theorem test_decode_wire :
    decode true (.wire 0x12 []) = .ok (.swReset []) ∧ decode true (.wire 0x01 [1, 2, 3]) = .ok (.drvOut [1, 2, 3]) ∧
      decode true (.wire 0x11 [3]) = .ok (.dataEntry [3]) ∧ decode true (.wire 0x44 [1, 2]) = .ok (.ramXWindow [1, 2]) ∧
      decode true (.wire 0x45 [1, 2, 3, 4]) = .ok (.ramYWindow [1, 2, 3, 4]) ∧
      decode true (.wire 0x3C [1]) = .ok (.borderWaveform [1]) ∧ decode true (.wire 0x2C [1]) = .ok (.vcom [1]) ∧
      decode true (.wire 0x03 [1]) = .ok (.gateVoltage [1]) ∧ decode true (.wire 0x04 [1, 2, 3]) = .ok (.sourceVoltage [1, 2, 3]) ∧
      decode true (.wire 0x32 [1]) = .ok (.lutWrite [1]) ∧ decode true (.wire 0x24 [1]) = .ok (.writeRamBw [1]) ∧
      decode true (.wire 0x22 [0xC7]) = .ok (.updateControl [0xC7]) ∧ decode true (.wire 0x20 []) = .ok (.activateUpdate []) ∧
      decode true (.wire 0x4E [0]) = .ok (.ramXCounter [0]) ∧ decode true (.wire 0x4F [0, 0]) = .ok (.ramYCounter [0, 0]) ∧
      decode true (.wire 0x0F [0]) = .ok (.cursorColStart [0]) ∧
      decode true (.wire 0x01 [0x10]) = .ok (.cursorLengthAlt01 [0x10]) := by
  decide

/-- Reserved encodings (30_encoding.md R76): OP 0x0, 0xD, 0xE, 0xF; a zero bit set in each format; 0xC where the block has no
bounded wait; a wire byte the table does not list. -/
theorem test_decode_reserved :
    decode true (.host 0x0#64 []) = .error .reservedOp ∧ decode true (.host 0xD#64 []) = .error .reservedOp ∧
      decode true (.host 0xE#64 []) = .error .reservedOp ∧ decode true (.host 0xF#64 []) = .error .reservedOp ∧
      decode false (.host 0x30C#64 []) = .error .reservedOp ∧ decode true (.host 0x11#64 []) = .error .reservedBits ∧
      decode true (.host 0x0100000000000002#64 []) = .error .reservedBits ∧
      decode true (.host 0x0000000000011206#64 []) = .error .reservedBits ∧
      decode true (.host 0x0000000001000107#64 []) = .error .reservedBits ∧
      decode true (.host 0x000001000000000B#64 []) = .error .reservedBits ∧
      decode true (.wire 0xFF []) = .error .unlistedWireByte := by
  decide

/-- The opcode table's words, as the host numbers them. -/
theorem test_table_words :
    decodeTableWord 64 0x9 = some (.init []) ∧ decodeTableWord 8 0x4F = some (.ramYCounter [0, 0]) ∧
      decodeTableWord 8 0x12 = some (.swReset []) ∧ decodeTableWord 64 0xD = none := by
  decide

/-! ### Operand conversions and primitives -/

/-- V-X1: ShiftByte(0xA5). -/
theorem test_shiftByte :
    eventsOf (shiftByte 0xA5) =
      [.drive .sclk false, .drive .sda true, .drive .sclk true, .drive .sclk false, .drive .sda false, .drive .sclk true,
        .drive .sclk false, .drive .sda true, .drive .sclk true, .drive .sclk false, .drive .sda false, .drive .sclk true,
        .drive .sclk false, .drive .sda false, .drive .sclk true, .drive .sclk false, .drive .sda true, .drive .sclk true,
        .drive .sclk false, .drive .sda false, .drive .sclk true, .drive .sclk false, .drive .sda true, .drive .sclk true] := by
  decide

/-- 20_memory.md R54: pixel (5, 8) is bit 7 of page 14. -/
theorem test_addresser : pageOf 8 = 14 ∧ bitPosOf 8 = 7 ∧ pageOf 127 = 0 ∧ bitPosOf 127 = 0 ∧ fbIndex 15 247 = 3967 := by decide

/-- The deviceY, page, shift column of the PLOTIMAGE vectors. -/
theorem test_splitDeviceY :
    deviceYOf 0 16 = 112 ∧ splitDeviceY 112 = (14, 0) ∧ splitDeviceY 119 = (14, 7) ∧ splitDeviceY 128 = (16, 0) ∧
      splitDeviceY (-1) = (-1, 7) ∧ splitDeviceY (-8) = (-2, 8) ∧ splitDeviceY (-9) = (-2, 7) := by
  decide

/-- 30_encoding.md R85: SEND 0x22, 0xC7. -/
theorem test_send :
    assemble (.send 0x22 [0xC7]) = some [.host 0x0000000000002206#64 [], .host 0x0000000000000107#64 [0xC7]] ∧
      assemble (.wrCmd 256) = none ∧ assemble (.clearArea 32768 0 1 1) = none := by
  decide

/-! ### The frame-buffer family (95_test_vectors.md) -/

/-- V-F1, one cell. -/
theorem test_clear : ∃ t, exec (.clear []) (withCells [(3967, 0xA5#8)]) = .next t ∧ t.fbByte 15 247 = 0x00#8 := by
  refine ⟨done ((withCells [(3967, 0xA5#8)]).doFb .clear) .ok, ?_, ?_⟩
  · simp [exec, execClear, State.issue, argsOk, countOk, operandStream, streamLength, State.advance_fb (withCells [(3967, 0xA5#8)]) rfl]
  · simp only [done, State.doFb, State.clearAll, State.fbByte, State.fbCell]
    rw [Memory.lookup_tabulate _ (by decide)]
    rfl

/-- V-F11, one cell. -/
theorem test_reverse : ∃ t, exec (.reverse []) (withCells [(0, 0x0F#8)]) = .next t ∧ t.fbByte 0 0 = 0xF0#8 := by
  refine ⟨done ((withCells [(0, 0x0F#8)]).doFb .reverse) .ok, ?_, ?_⟩
  · simp [exec, execReverse, State.issue, argsOk, countOk, operandStream, streamLength, State.advance_fb (withCells [(0, 0x0F#8)]) rfl]
  · simp only [done, State.doFb, State.reverseAll, State.fbByte, State.fbCell]
    rw [Memory.lookup_tabulate _ (by decide)]
    rfl

/-- V-F3. -/
theorem test_clearArea_two_pages :
    ends (exec (.clearArea 0 4 1 8 []) (withCells [(3472, 0xFF#8), (3720, 0xFF#8)]))
      (fun t => t.fb == [(3472, 0x0F#8), (3720, 0xF0#8)] && t.err == .ok && !t.busyOp) = true := by
  decide

/-- V-F4: wholly outside. -/
theorem test_clearArea_outside :
    ends (exec (.clearArea 0xFFF6 0xFFF6 5 5 []) (withCells [(3720, 0xFF#8)])) (fun t => t.fb == [(3720, 0xFF#8)]) = true := by
  decide

/-- V-F8. -/
theorem test_reverseArea_clips :
    ends (exec (.reverseArea 0xFFFE 126 4 4 []) (withCells [(0, 0#8), (1, 0#8), (2, 0#8)]))
      (fun t => t.fb == [(0, 0x03#8), (1, 0x03#8), (2, 0#8)]) = true := by
  decide

/-- V-F9. -/
theorem test_reverseArea_one_pixel :
    ends (exec (.reverseArea 5 8 1 1 []) (withCells [(3477, 0#8)])) (fun t => t.fb == [(3477, 0x80#8)]) = true := by
  decide

/-- V-P5b: the clear, then both writes of a shifted strip, one of them onto 0xFF. -/
theorem test_plotImage_shifted :
    ends (exec (.plotImage 0 0xFFFC 1 8 [0xAB]) (withCells [(3472, 0xFF#8), (3720, 0xFF#8)]))
      (fun t => t.fb == [(3472, 0xFF#8), (3720, 0xBF#8)]) = true := by
  decide

/-- V-P4: deviceY −1, so only the clear is seen. -/
theorem test_plotImage_negative_deviceY :
    ends (exec (.plotImage 0 121 1 8 [0xFF]) (withCells [(0, 0xFF#8)])) (fun t => t.fb == [(0, 0x80#8)]) = true := by
  decide

/-- P1: READFB 3, 13. -/
theorem test_readFb : ends (exec (.readFb 3 13 []) (withCells [(3227, 0x18#8)])) (fun t => t.result == 0x18 && t.err == .ok) = true := by
  decide

/-- V-F12, V-F13, V-F14: outside the window. -/
theorem test_readFb_outside :
    ends (exec (.readFb 248 0 []) { blk with result := 1 }) (fun t => t.result == 0) = true ∧
      ends (exec (.readFb 0xFFFF 0 []) { blk with result := 1 }) (fun t => t.result == 0) = true ∧
      ends (exec (.readFb 0 16 []) { blk with result := 1 }) (fun t => t.result == 0) = true := by
  decide

/-! ### The serial framer -/

/-- V-S2. -/
theorem test_wrCmd :
    ends (exec (.wrCmd 0x12 []) blk)
      (fun t =>
        t.trace.length == 27 && seen t == [.byte .cmd 0x12] && t.pins == { sclk := true, sda := false, dc := false, cs := true, res := true }) =
      true := by
  decide

/-- V-S3. -/
theorem test_wrData :
    ends (exec (.wrData 2 [0xA5, 0x5A]) blk)
      (fun t =>
        t.trace.length == 51 && seen t == [.byte .data 0xA5, .byte .data 0x5A] &&
          t.pins == { sclk := true, sda := false, dc := true, cs := true, res := true }) =
      true := by
  decide

/-- V-S6. -/
theorem test_waitBusy_ready :
    ends (exec (.waitBusy []) (withBusy [false])) (fun t => t.trace.reverse == [.sample false, .delay 10] && t.status == 0x00) = true := by
  decide

/-- V-S7: the first busy sample leaves the operation running. -/
theorem test_waitBusy_busy :
    ends (exec (.waitBusy []) (withBusy [true, true])) (fun t => t.trace == [.sample true] && t.status == 0x08) = true := by
  decide

/-- V-S8. -/
theorem test_waitBusyB_timeout :
    ends (exec (.waitBusyB 2 []) (withBusy [true, true, false]))
      (fun t => t.trace == [.sample true, .sample true] && t.status == 0x04) =
      true := by
  decide

/-- V-S9. -/
theorem test_waitBusyB_ready :
    ends (exec (.waitBusyB 3 []) (withBusy [true, false]))
      (fun t => t.trace.reverse == [.sample true, .sample false, .delay 10] && t.status == 0x00) =
      true := by
  decide

/-! ### The panel sequencer -/

set_option maxRecDepth 20000 in
/-- V-Q4: INIT under a busy panel. -/
theorem test_init_busy :
    ends (exec (.init []) (withBusy [true]))
      (fun t =>
        t.trace.reverse ==
            [.drive .res true, .delay 1, .drive .res false, .delay 2, .drive .res true, .delay 3, .sample true] &&
          t.status == 0x28) =
      true := by
  decide

set_option maxRecDepth 100000 in
/-- R165, with INIT_FILL_COUNT = 2: the whole byte-level transcript, PSTATE = IDLE at the end. -/
theorem test_init :
    ends (exec (.init []) (withBusy [false, false, false]))
      (fun t =>
        t.status == 0x60 &&
          seen t ==
            [.res true, .delay 1, .res false, .delay 2, .res true, .delay 3, .sample false, .delay 10, .byte .cmd 0x12,
              .sample false, .delay 10, .byte .cmd 0x01, .byte .data 1, .byte .data 2, .byte .data 3, .byte .cmd 0x11,
              .byte .data 4, .byte .cmd 0x44, .byte .data 5, .byte .data 6, .byte .cmd 0x45, .byte .data 7, .byte .data 8,
              .byte .data 9, .byte .data 10, .byte .cmd 0x3C, .byte .data 11, .byte .cmd 0x2C, .byte .data 12, .byte .cmd 0x03,
              .byte .data 13, .byte .cmd 0x04, .byte .data 14, .byte .data 15, .byte .data 16, .byte .cmd 0x24,
              .byte .data 0xFF, .byte .data 0xFF, .sample false, .delay 10]) =
      true := by
  decide

/-- P3, first line: UPDATE after reset is ESEQ, and emits nothing. -/
theorem test_update_eseq : ends (exec (.update []) blk) (fun t => t.err == .eseq && t.trace.isEmpty && !t.busyOp) = true := by
  decide

/-- 42_panel_controller.md R160, R166: UPDATE starts in TRANSMITTING, at command 0x44. -/
theorem test_update_starts :
    ∃ t, exec (.update []) { withHost [{ gap := 0, input := .readStatus }] with pstate := .idle } = .next t ∧ t.status = 0x88#8 ∧
      t.seq.head? = some (.wire 0x44#8 [5#8, 6#8]) := by
  generalize hs : ({ withHost [{ gap := 0, input := .readStatus }] with pstate := .idle } : State) = s
  refine ⟨({ s with pstate := .transmitting } : State).accept (updateOps s.cfg s.fbStream), ?_, ?_, ?_⟩
  · have hp : s.pstate = .idle := by rw [← hs]
    have hd : (({ s with pstate := .transmitting } : State).accept (updateOps s.cfg s.fbStream)).inputDue = true := by rw [← hs]; rfl
    simp [exec, execUpdate, argsOk, countOk, operandStream, streamLength, hp, State.advance_due hd]
  · rw [← hs]; rfl
  · rw [← hs]; rfl

/-! ### The wire commands (43_wire_commands.md, the examples) -/

theorem test_swReset : ends (exec (.swReset []) blk) (fun t => t.trace.length == 27 && seen t == [.byte .cmd 0x12]) = true := by decide

theorem test_drvOut :
    ends (exec (.drvOut [1, 2, 3]) blk)
      (fun t => t.trace.length == 102 && seen t == [.byte .cmd 0x01, .byte .data 1, .byte .data 2, .byte .data 3]) =
      true := by
  decide

theorem test_dataEntry : ends (exec (.dataEntry [3]) blk) (fun t => seen t == [.byte .cmd 0x11, .byte .data 3]) = true := by decide

theorem test_ramXWindow :
    ends (exec (.ramXWindow [5, 6]) blk) (fun t => seen t == [.byte .cmd 0x44, .byte .data 5, .byte .data 6]) = true := by
  decide

set_option maxRecDepth 20000 in
/-- R194, PER_BYTE framing: 135 events. -/
theorem test_ramYWindow_perByte :
    ends (exec (.ramYWindow [7, 8, 9, 10]) { blk with cfg := { cfg with dataFraming := .perByte } })
      (fun t =>
        t.trace.length == 135 && seen t == [.byte .cmd 0x45, .byte .data 7, .byte .data 8, .byte .data 9, .byte .data 10]) =
      true := by
  decide

theorem test_borderWaveform : ends (exec (.borderWaveform [11]) blk) (fun t => seen t == [.byte .cmd 0x3C, .byte .data 11]) = true := by
  decide

theorem test_vcom : ends (exec (.vcom [12]) blk) (fun t => seen t == [.byte .cmd 0x2C, .byte .data 12]) = true := by decide

theorem test_gateVoltage : ends (exec (.gateVoltage [13]) blk) (fun t => seen t == [.byte .cmd 0x03, .byte .data 13]) = true := by
  decide

theorem test_sourceVoltage :
    ends (exec (.sourceVoltage [14, 15, 16]) blk)
      (fun t => seen t == [.byte .cmd 0x04, .byte .data 14, .byte .data 15, .byte .data 16]) =
      true := by
  decide

/-- R82: a payload of the wrong length is sent as it is. -/
theorem test_lutWrite_short : ends (exec (.lutWrite [1]) blk) (fun t => seen t == [.byte .cmd 0x32, .byte .data 1]) = true := by
  decide

set_option maxRecDepth 20000 in
/-- R199: the payload is one burst, whatever DATA_FRAMING is: 27 + (3 + 24 × 2) events. -/
theorem test_lutWrite_perByte :
    ends (exec (.lutWrite [0xA5, 0x5A]) { blk with cfg := { cfg with dataFraming := .perByte } })
      (fun t => t.trace.length == 78 && seen t == [.byte .cmd 0x32, .byte .data 0xA5, .byte .data 0x5A]) =
      true := by
  decide

theorem test_writeRamBw :
    ends (exec (.writeRamBw [0xFF, 0x00]) blk) (fun t => seen t == [.byte .cmd 0x24, .byte .data 0xFF, .byte .data 0]) = true := by
  decide

theorem test_updateControl :
    ends (exec (.updateControl [0xC7]) blk) (fun t => seen t == [.byte .cmd 0x22, .byte .data 0xC7]) = true := by
  decide

theorem test_activateUpdate :
    ends (exec (.activateUpdate []) blk) (fun t => t.trace.length == 27 && seen t == [.byte .cmd 0x20]) = true := by
  decide

theorem test_ramXCounter : ends (exec (.ramXCounter [18]) blk) (fun t => seen t == [.byte .cmd 0x4E, .byte .data 18]) = true := by
  decide

theorem test_ramYCounter :
    ends (exec (.ramYCounter [0, 0]) blk) (fun t => seen t == [.byte .cmd 0x4F, .byte .data 0, .byte .data 0]) = true := by
  decide

theorem test_cursorColStart : ends (exec (.cursorColStart [0]) blk) (fun t => seen t == [.byte .cmd 0x0F, .byte .data 0]) = true := by
  decide

/-- R206: 54 events. -/
theorem test_cursorLengthAlt01 :
    ends (exec (.cursorLengthAlt01 [0x10]) blk)
      (fun t => t.trace.length == 54 && seen t == [.byte .cmd 0x01, .byte .data 0x10]) =
      true := by
  decide

/-! ### The host port and reset -/

set_option maxRecDepth 20000 in
/-- V-Q10: a block reset ends it. -/
theorem test_init_hang_reset :
    ends (exec (.init []) (withBusy [true]))
      (fun t => ends (step { t with host := [{ gap := 0, input := .blockReset }] }) fun u => u.status == 0x00 && u.seq.isEmpty) =
      true := by
  decide

/-- V-D9: WAITBUSYB where HAS_BOUNDED_WAIT = false. -/
theorem test_issue_no_bounded_wait :
    ends (step { withHost [{ gap := 0, input := .issue 0x30C [] }] with cfg := { cfg with hasBoundedWait := false } })
      (fun t => t.status == 0x01) =
      true := by
  decide

/-- V-D11: an issue while an operation runs. -/
theorem test_issue_dropped :
    ends (step { withHost [{ gap := 0, input := .issue 0x1 [] }] with busyOp := true, seq := [.poll, .finish .ok], err := .earg })
      (fun t => t.status == 0x1A && t.seq == [.poll, .finish .ok]) =
      true := by
  decide

/-- V-D12: a rejected issue clears OVR. -/
theorem test_issue_clears_ovr :
    ends (step { withHost [{ gap := 0, input := .issue 0xE [] }] with ovr := true }) (fun t => t.status == 0x01) = true := by
  decide

/-- 70_reset_and_hazards.md R241: a reset in the middle of a byte; 10 events of the frame have been emitted, then the five reset
drives. -/
theorem test_reset_mid_byte :
    ends (exec (.wrCmd 0xFF []) (withHost [{ gap := 10, input := .blockReset }]))
      (fun t =>
        t.trace.length == 10 && t.busyOp &&
          ends (step t) fun u =>
            u.trace.length == 15 && u.pins == { sclk := false, sda := false, dc := true, cs := true, res := true } && !u.busyOp) =
      true := by
  decide

/-! ### Witnesses: for each statement with hypotheses, a state and operands that meet all of them -/

/-- The block with one issue to come. -/
def issuing (d : Desc) (st : List Byte) : State := withHost [{ gap := 0, input := .issue d st }]

theorem witness_DecodeInvertsEncode : (Instr.plotImage 0xFFFE 126 255 255 (List.replicate 8160 0)).wf = true := by
  simp only [Instr.wf, argsOk, countOk, operandStream, streamLength, List.length_replicate]
  decide

theorem witness_EncodeInvertsDecode :
    decode false (.host 0x00FFFF7FFF800005#64 []) = .ok (.plotImage 0x8000 0x7FFF 255 255 []) ∧
      decode true (.wire 0x01 [0x10]) = .ok (.cursorLengthAlt01 [0x10]) := by
  decide

theorem witness_HostTableRowsDecide :
    (∃ i, decode true (.host 0x0000FFFFFFFFFF0B#64 []) = .ok i) = False ∧ (∃ i, decode true (.host 0x000000FFFFFFFF0B#64 []) = .ok i) := by
  constructor
  · simp only [eq_iff_iff, iff_false, not_exists]
    intro i h
    have : decode true (.host 0x0000FFFFFFFFFF0B#64 []) = .error .reservedBits := by decide
    rw [this] at h
    cases h
  · exact ⟨.readFb 0xFFFF 0xFFFF [], by decide⟩

theorem witness_StepRunsIssuedOperation :
    Idle (issuing 0x1 []) ∧ (issuing 0x1 []).busyOp = false ∧
      (issuing 0x1 []).host = { gap := 0, input := .issue 0x1 [] } :: [] ∧
      decode (issuing 0x1 []).cfg.hasBoundedWait (.host 0x1 []) = .ok (.clear []) := by
  refine ⟨rfl, rfl, rfl, by decide⟩

theorem witness_StepRunsSequencedWireCommand :
    ({ blk with seq := [.wire 0x12 [], .finish .ok] } : State).seq = .wire 0x12 [] :: [.finish .ok] ∧
      ({ blk with seq := [.wire 0x12 [], .finish .ok] } : State).inputDue = false ∧
      decode blk.cfg.hasBoundedWait (.wire 0x12 []) = .ok (.swReset []) := by
  decide

theorem witness_IdleStepWaits : Idle blk ∧ Quiet blk := ⟨rfl, rfl⟩

/-- One issue for each of the three codes. -/
theorem witness_DecodeErrorOnlySetsErr :
    (∀ d st, Idle (issuing d st) ∧ (issuing d st).busyOp = false ∧ (issuing d st).host = { gap := 0, input := .issue d st } :: []) ∧
      rejection cfg .uninit 0xD [] = some .eillop ∧ rejection cfg .uninit 0x11 [] = some .eillop ∧
      rejection cfg .uninit 0x7 [] = some .earg ∧ rejection cfg .uninit 0xA [0] = some .earg ∧
      rejection cfg .uninit 0xA [] = some .eseq := by
  exact ⟨fun _ _ => ⟨rfl, rfl, rfl⟩, by decide⟩

theorem witness_AcceptedIssueSetsBusyop :
    Idle (withHost [{ gap := 3, input := .issue 0x9 [] }, { gap := 0, input := .readStatus }]) ∧
      (withHost [{ gap := 3, input := .issue 0x9 [] }, { gap := 0, input := .readStatus }]).busyOp = false ∧
      (withHost [{ gap := 3, input := .issue 0x9 [] }, { gap := 0, input := .readStatus }]).host =
        { gap := 3, input := .issue 0x9 [] } :: { gap := 0, input := .readStatus } :: [] ∧
      rejection cfg .uninit 0x9 [] = none ∧ rejection cfg .idle 0xA [] = none := by
  refine ⟨rfl, rfl, rfl, by decide, by decide⟩

/-- Each clause at its boundary: the shortest wrong stream, one byte short and one byte long, N = 0, limit = 0. -/
theorem witness_BadArgumentsAnswerAtOnce :
    ([0] : List Byte) ≠ [] ∧ (List.replicate 15 (0 : Byte)).length ≠ ((16 : Byte).toNat + 7) / 8 * (8 : Byte).toNat ∧
      (List.replicate 17 (0 : Byte)).length ≠ ((16 : Byte).toNat + 7) / 8 * (8 : Byte).toNat ∧
      (0 : Half).toNat = 0 ∧ ([1, 2] : List Byte).length ≠ (1 : Half).toNat ∧ blk.cfg.hasBoundedWait = true ∧
      ({ blk with cfg := { cfg with hasBoundedWait := false } } : State).cfg.hasBoundedWait = false := by
  decide

/-- A block at a wait, with one input due. -/
def waiting (input : Input) : State :=
  { withHost [{ gap := 0, input := input }] with busyOp := true, seq := [.poll, .delay 10, .finish .ok] }

theorem witness_IssueWhileRunningIsDropped :
    (waiting (.issue 0x1 [])).busyOp = true ∧ Lands (waiting (.issue 0x1 [])) (.issue 0x1 []) [] :=
  ⟨rfl, 0, rfl, .inl rfl⟩

/-- One state for each clause; the second input lands late, because nothing runs. -/
theorem witness_OvrSetByDropClearedByReceipt :
    (Lands (waiting (.issue 0x1 [])) (.issue 0x1 []) [] ∧ ∃ t, step (waiting (.issue 0x1 [])) = .next t) ∧
      (Lands (withHost [{ gap := 7, input := .issue 0xD [] }]) (.issue 0xD []) [] ∧
        ∃ t, step (withHost [{ gap := 7, input := .issue 0xD [] }]) = .next t) ∧
      (Lands (waiting .readStatus) .readStatus [] ∧ ∃ t, step (waiting .readStatus) = .next t) :=
  ⟨⟨⟨0, rfl, .inl rfl⟩, _, rfl⟩, ⟨⟨7, rfl, .inr rfl⟩, _, rfl⟩, ⟨0, rfl, .inl rfl⟩, _, rfl⟩

theorem witness_ReadsReturnRegisters :
    Lands (waiting .readStatus) .readStatus [] ∧ Lands (withHost [{ gap := 7, input := .readResult }]) .readResult [] :=
  ⟨⟨0, rfl, .inl rfl⟩, 7, rfl, .inr rfl⟩

/-- For every statement whose one hypothesis is `Quiet s`. -/
theorem witness_Quiet : Quiet blk := rfl

/-- For CLEAR and REVERSE: a cell of the window. For CLEARAREA and REVERSEAREA: the corner pixels. -/
theorem witness_window :
    inFB 0 0 = true ∧ inFB 15 247 = true ∧ inFB 16 0 = false ∧ inFB 0 248 = false ∧ inPix 0 0 = true ∧ inPix 247 127 = true ∧
      inPix 248 0 = false ∧ inPix 0 128 = false := by
  decide

theorem witness_PlotImageCompletes :
    Quiet blk ∧ (List.replicate 16 (0 : Byte)).length = ((16 : Byte).toNat + 7) / 8 * (8 : Byte).toNat ∧ inFB 13 7 = true ∧ 7 < 8 :=
  ⟨rfl, by decide⟩

/-- deviceY = −1 with the spec's rectangle, and a block whose frame buffer is all 0xFF. -/
theorem witness_PlotImageNegativeDeviceYOnlyClears :
    (Quiet blk ∧ ([0xFF] : List Byte).length = ((8 : Byte).toNat + 7) / 8 * (1 : Byte).toNat ∧
        deviceYOf (121 : Half).toInt (8 : Byte).toNat < 0) ∧
      Quiet (withCells (Memory.tabulate fun _ => 0xFF#8)) ∧
      ∀ p c : Int, inFB p c = true → (withCells (Memory.tabulate fun _ => 0xFF#8)).fbByte p c = 0xFF#8 := by
  refine ⟨⟨rfl, by decide, by decide⟩, rfl, fun p c h => ?_⟩
  simp only [withCells, State.fbByte, State.fbCell]
  rw [Memory.lookup_tabulate _ (fbIndex_lt h)]
  rfl

/-- Each clause at its boundary: 0, −1, −7 and −8. -/
theorem witness_PageShiftSplit :
    (0 : Int) ≤ 0 ∧ ((-1 : Int) < 0 ∧ (-1 : Int).fmod 8 ≠ 0) ∧ ((-7 : Int) < 0 ∧ (-7 : Int).fmod 8 ≠ 0) ∧
      ((-8 : Int) < 0 ∧ (-8 : Int).fmod 8 = 0) := by
  decide

theorem witness_AddresserIsBijective : inPix 247 127 = true ∧ inFB 15 247 = true ∧ 7 < 8 := by decide

theorem witness_FrameBufferFamilyFrame :
    (∃ t, exec (.plotImage 0 0 1 8 [0xFF]) blk = .next t) ∧ ∃ t, exec (.readFb 0 0 []) blk = .next t :=
  ⟨⟨_, rfl⟩, _, rfl⟩

theorem witness_ShiftByteEmitsEightCells :
    (Receiver.mk true true false cfg.csActiveLevel []).cs = cfg.csActiveLevel ∧
      (Receiver.mk true true false cfg.csActiveLevel []).bits = [] :=
  ⟨rfl, rfl⟩

theorem witness_FrameShape : Event.drive .sda true ∈ [0xA5#8].flatMap cells := by decide

/-- A stream of one byte and one of two. -/
theorem witness_FrameLeavesPinLevels :
    Quiet blk ∧ (([] : List Byte) ++ [0xA5]).length = (1 : Half).toNat ∧ (([0xA5] : List Byte) ++ [0x5A]).length = (2 : Half).toNat :=
  ⟨rfl, rfl, rfl⟩

theorem witness_FrameByteView : Quiet blk ∧ (1 : Half) ≠ 0#16 ∧ ([0xA5] : List Byte).length = (1 : Half).toNat := ⟨rfl, by decide, rfl⟩

theorem witness_WrDataCompletes : Quiet blk ∧ (2 : Half) ≠ 0#16 ∧ ([0xA5, 0x5A] : List Byte).length = (2 : Half).toNat :=
  ⟨rfl, by decide, rfl⟩

theorem witness_WaitBusyCompletes : Quiet (withBusy [false]) ∧ (withBusy [false]).busyAt 0 = false := ⟨rfl, rfl⟩

/-- k = 0 and k = 2. -/
theorem witness_WaitBusyEndsAtFirstNotBusy :
    (Quiet (withBusy [false]) ∧ (∀ j < 0, (withBusy [false]).busyAt j = true) ∧ (withBusy [false]).busyAt 0 = false) ∧
      Quiet (withBusy [true, true, false]) ∧ (∀ j < 2, (withBusy [true, true, false]).busyAt j = true) ∧
      (withBusy [true, true, false]).busyAt 2 = false :=
  ⟨⟨rfl, by decide, by decide⟩, rfl, by decide, by decide⟩

theorem witness_WaitBusyHangsWhileBusy : Quiet (withBusy [true, true]) ∧ ∀ j ≤ 1, (withBusy [true, true]).busyAt j = true :=
  ⟨rfl, by decide⟩

/-- limit = 1, the boundary of both clauses, and limit = 3 with the last sample not busy. -/
theorem witness_WaitBusyBCompletes :
    (Quiet (withBusy [false]) ∧ (withBusy [false]).cfg.hasBoundedWait = true ∧ (1 : Half) ≠ 0#16 ∧ 0 < (1 : Half).toNat ∧
        (∀ j < 0, (withBusy [false]).busyAt j = true) ∧ (withBusy [false]).busyAt 0 = false) ∧
      (∀ j < (1 : Half).toNat, (withBusy [true]).busyAt j = true) ∧
      2 < (3 : Half).toNat ∧ (∀ j < 2, (withBusy [true, true, false]).busyAt j = true) ∧
      (withBusy [true, true, false]).busyAt 2 = false :=
  ⟨⟨rfl, by decide⟩, by decide⟩

theorem witness_FramerFrame :
    (∃ t, exec (.wrCmd 0x12 []) blk = .next t) ∧ (∃ t, exec (.wrData 1 [0]) blk = .next t) ∧
      (∃ t, exec (.waitBusy []) blk = .next t) ∧ ∃ t, exec (.waitBusyB 1 []) blk = .next t :=
  ⟨⟨_, rfl⟩, ⟨_, rfl⟩, ⟨_, rfl⟩, _, rfl⟩

theorem witness_InitCompletes :
    Quiet (withBusy [false, false, false]) ∧ (withBusy [false, false, false]).busyAt 0 = false ∧
      (withBusy [false, false, false]).busyAt 1 = false ∧ (withBusy [false, false, false]).busyAt 2 = false :=
  ⟨rfl, rfl, rfl, rfl⟩

/-- The three waits return after 1, 0 and 2 busy samples. -/
theorem witness_InitByteView :
    Quiet (withBusy [true, false, false, true, true, false]) ∧ BusyTimes (withBusy [true, false, false, true, true, false]) 0 1 ∧
      BusyTimes (withBusy [true, false, false, true, true, false]) (1 + 1) 0 ∧
      BusyTimes (withBusy [true, false, false, true, true, false]) (1 + 1 + 0 + 1) 2 := by
  refine ⟨rfl, ?_, ?_, ?_⟩ <;> unfold BusyTimes <;> decide

theorem witness_UpdateByteView :
    Quiet { withBusy [true, false] with pstate := .idle } ∧ ({ withBusy [true, false] with pstate := .idle } : State).pstate = .idle ∧
      BusyTimes { withBusy [true, false] with pstate := .idle } 0 1 := by
  refine ⟨rfl, rfl, ?_⟩
  unfold BusyTimes
  decide

/-- The panel busy at the second wait, and busy at the third. -/
theorem witness_InitHangsAtLaterWaits :
    (Quiet (withBusy [false, true]) ∧ BusyTimes (withBusy [false, true]) 0 0 ∧
        ∀ j ≤ 0, (withBusy [false, true]).busyAt (0 + 1 + j) = true) ∧
      Quiet (withBusy [true, false, false, true]) ∧ BusyTimes (withBusy [true, false, false, true]) 0 1 ∧
      BusyTimes (withBusy [true, false, false, true]) (1 + 1) 0 ∧
      ∀ j ≤ 0, (withBusy [true, false, false, true]).busyAt (1 + 1 + 0 + 1 + j) = true := by
  refine ⟨⟨rfl, ?_, ?_⟩, rfl, ?_, ?_, ?_⟩ <;> (try unfold BusyTimes) <;> decide

theorem witness_InitHangsInSoftReset : Quiet (withBusy [true, true]) ∧ ∀ j ≤ 1, (withBusy [true, true]).busyAt j = true :=
  ⟨rfl, by decide⟩

theorem witness_UpdateCompletes :
    Quiet { withBusy [false] with pstate := .idle } ∧ ({ withBusy [false] with pstate := .idle } : State).pstate = .idle ∧
      ({ withBusy [false] with pstate := .idle } : State).busyAt 0 = false :=
  ⟨rfl, rfl, rfl⟩

theorem witness_UpdateHangsInBusyWait :
    Quiet { withBusy [true] with pstate := .idle } ∧ ({ withBusy [true] with pstate := .idle } : State).pstate = .idle ∧
      ∀ j ≤ 0, ({ withBusy [true] with pstate := .idle } : State).busyAt j = true :=
  ⟨rfl, rfl, by decide⟩

theorem witness_UpdateOutsideIdleIsEseq :
    Idle (issuing 0xA []) ∧ (issuing 0xA []).busyOp = false ∧ (issuing 0xA []).pstate ≠ .idle ∧
      (issuing 0xA []).host = { gap := 0, input := .issue 0x000000000000000A#64 [] } :: [] :=
  ⟨rfl, rfl, by decide, rfl⟩

theorem witness_SequencerFrame : (∃ t, exec (.init []) blk = .next t) ∧ ∃ t, exec (.update []) blk = .next t :=
  ⟨⟨_, rfl⟩, _, rfl⟩

/-- OP 0x8, next to the excluded 0x9. -/
theorem witness_OnlyInitUpdateResetWritePState :
    Idle (issuing 0x8 []) ∧ (issuing 0x8 []).host = { gap := 0, input := .issue 0x8 [] } :: [] ∧
      (Input.issue 0x8 []) ≠ .blockReset ∧
      (∀ d st, Input.issue 0x8 [] = .issue d st → d.toNat % 16 ≠ 0x9 ∧ d.toNat % 16 ≠ 0xA) ∧
      ∃ t, step (issuing 0x8 []) = .next t := by
  refine ⟨rfl, rfl, by decide, ?_, _, rfl⟩
  intro d st h
  cases h
  decide

theorem witness_WireCommandsComplete : Quiet blk ∧ Idle blk ∧ (List.replicate 224 (0 : Byte)).length = 224 :=
  ⟨rfl, rfl, List.length_replicate⟩

theorem witness_WireCommandsChangeOnlyPins :
    Idle blk ∧ decode true (.wire 0x22 [0xC7]) = .ok (.updateControl [0xC7]) ∧ ∃ t, exec (.updateControl [0xC7]) blk = .next t :=
  ⟨rfl, by decide, _, rfl⟩

/-- A command with a payload and one without. -/
theorem witness_SendEqualsWireCommand :
    Quiet blk ∧ ([0xC7] : List Byte).length ≤ 65535 ∧ Idle blk ∧
      decode true (.wire 0x22 [0xC7]) = .ok (.updateControl [0xC7]) ∧ decode true (.wire 0x20 []) = .ok (.activateUpdate []) :=
  ⟨rfl, by decide, rfl, by decide⟩

/-- A running block and a waiting one meet the invariants, and a step from each answers a next state. -/
theorem witness_StepKeeps :
    FbInv (withCells [(0, 1#8), (3967, 2#8)]) ∧ RunInv (waiting .readStatus) ∧ RunInv blk ∧
      PinInv { blk with trace := resetDrives cfg } ∧ RestInv (waiting .readStatus) ∧
      (∃ t, step (waiting .readStatus) = .next t) ∧ ∃ t, step (withCells [(0, 1#8), (3967, 2#8)]) = .next t := by
  refine ⟨by unfold FbInv; decide, .inr ⟨by decide, rfl, rfl⟩, .inl ⟨rfl, rfl, rfl⟩, fun pin => by cases pin <;> rfl, ⟨rfl, rfl⟩,
    ⟨_, rfl⟩, _, rfl⟩

theorem witness_ParametersNeverChange : ∃ t, step (issuing 0x9 []) = .next t := ⟨_, rfl⟩

theorem witness_TranscriptOnlyGrows : ∃ t, step (issuing 0x1206 []) = .next t := ⟨_, rfl⟩

/-- In the middle of a wait, and with nothing running. -/
theorem witness_BlockResetEffect :
    Lands (waiting .blockReset) .blockReset [] ∧ Lands (withHost [{ gap := 5, input := .blockReset }]) .blockReset [] :=
  ⟨⟨0, rfl, .inl rfl⟩, 5, rfl, .inr rfl⟩

end Sys2Proof.Tests
end

/-! The state family (10_state.md): what an input does when it lands, what OVR is after a step, the pin levels a frame leaves
behind, and the reset values. -/

namespace Sys2Proof.Machine

open Sys2Proof.Safety

/-! ### Inputs that land -/

theorem State.takeInput_of_lands {s : State} {inp : Input} {r : List Arrival} (h : Lands s inp r) :
    s.takeInput = some (inp, { s with host := r }) := by
  obtain ⟨gap, hhost, hgap⟩ := h
  have hnow : (s.seq.isEmpty || gap == 0) = true := by
    rcases hgap with rfl | hidle
    · simp
    · simp [show s.seq = [] from hidle]
  simp only [State.takeInput, hhost, hnow, if_true]

/-- A step at which an input lands is the handling of that input, with the arrival consumed. -/
theorem step_of_lands {s : State} {inp : Input} {r : List Arrival} (h : Lands s inp r) :
    step s = State.handleInput { s with host := r } inp := by
  rw [step, State.takeInput_of_lands h]

theorem State.handleIssue_of_busy {s : State} (hb : s.busyOp = true) (d : Desc) (st : List Byte) :
    s.handleIssue d st = .next s.dropIssue := by
  rw [State.handleIssue, if_pos hb]

/-- A received issue (30_encoding.md R70, R77) has cleared OVR, and is then rejected, with nothing but the code, or accepted
and run. -/
theorem State.handleIssue_received {s t : State} {d : Desc} {st : List Byte} (hb : s.busyOp = false)
    (h : s.handleIssue d st = .next t) :
    (∃ e, t = s.receiveIssue.raise e) ∨
      ∃ q prog, t = ({ s.receiveIssue with pstate := q }.accept prog).advance := by
  simp only [State.handleIssue, hb, Bool.false_eq_true, if_false] at h
  split at h
  · rename_i i hi
    obtain ⟨q, prog, hl⟩ := decodeHost_launch hi s.receiveIssue
    rcases exec_host hl h with hrej | hrun
    · exact .inl hrej
    · exact .inr ⟨q, prog, hrun⟩
  · cases h
    exact .inl ⟨_, rfl⟩

/-! ### OVR: no part of a running operation writes it -/

@[simp] theorem State.doFb_ovr (s : State) (op : FbOp) : (s.doFb op).ovr = s.ovr := by
  have h := State.doFb_sameButFb s op
  rw [State.sameButFb] at h
  rw [h]

@[simp] theorem State.micro_ovr (s : State) (op : SeqOp) (rest : List SeqOp) : (s.micro op rest).1.ovr = s.ovr := by
  cases op with
  | poll => simp only [State.micro]; split <;> rfl
  | pollBounded n =>
    cases n with
    | zero => rfl
    | succ n => simp only [State.micro]; split <;> rfl
  | fb f => simp [State.micro]
  | _ => rfl

@[simp] theorem State.advance_ovr (s : State) : s.advance.ovr = s.ovr :=
  State.advance_keeps (P := fun t => t.ovr = s.ovr) (fun t op rest _ h => (State.micro_ovr t op rest).trans h) rfl

/-- Settles O12: each clause is what the handling of the input that lands does. -/
theorem ovrSetByDropClearedByReceipt : Obligations.OvrSetByDropClearedByReceipt := by
  intro s t inp r hland hstep
  rw [step_of_lands hland] at hstep
  refine ⟨?dropped, ?received, ?statusRead⟩
  case dropped =>
    rintro d st rfl hbusy
    rw [State.handleInput, State.handleIssue_of_busy (s := { s with host := r }) hbusy] at hstep
    cases hstep
    rfl
  case received =>
    rintro d st rfl hbusy
    rcases State.handleIssue_received (s := { s with host := r }) hbusy hstep with ⟨e, rfl⟩ | ⟨q, prog, rfl⟩
    · rw [State.raise_ovr, State.receiveIssue_ovr]
    · rw [State.advance_ovr, State.accept_ovr, State.receiveIssue_ovr]
  case statusRead =>
    rintro rfl
    cases hstep
    rfl

/-! ### The pin levels a frame leaves behind -/

theorem eventsOf_nil : eventsOf [] = [] := rfl

theorem eventsOf_drive_cons (pin : Pin) (v : Level) (l : List SeqOp) :
    eventsOf (.drive pin v :: l) = .drive pin v :: eventsOf l := rfl

theorem eventsOf_flatMap {α : Type} (f : α → List SeqOp) (l : List α) :
    eventsOf (l.flatMap f) = l.flatMap fun a => eventsOf (f a) := by
  induction l with
  | nil => rfl
  | cons a l ih => rw [List.flatMap_cons, eventsOf_append, ih, List.flatMap_cons]

theorem eventsOf_shiftByte (v : Byte) : eventsOf (shiftByte v) = cells v := rfl

theorem drive_dcLevel (cfg : Params) (kind : Kind) : Event.drive .dc (dcLevel cfg kind) = setDc cfg kind := by
  cases kind <;> rfl

theorem eventsOf_frame (cfg : Params) (kind : Kind) (bs : List Byte) :
    eventsOf (frame cfg kind bs) = frameEvents cfg kind bs := by
  simp only [frame, frameEvents, eventsOf_drive_cons, eventsOf_nil, eventsOf_append, eventsOf_flatMap, eventsOf_shiftByte,
    drive_dcLevel]

/-- The cells of a byte leave SCLK at 1 and SDA at the byte's last bit (41_serial_bus.md R130). -/
theorem foldl_onEvent_cells (v : Byte) (p : Pins) :
    (cells v).foldl Pins.onEvent p = { p with sclk := true, sda := v.getLsbD 0 } := rfl

/-- The cells of several bytes leave SDA at the last bit of the last byte: the bytes before it leave nothing behind. -/
theorem foldl_onEvent_flatMap_cells (bs : List Byte) (last : Byte) (p : Pins) :
    ((bs ++ [last]).flatMap cells).foldl Pins.onEvent p = { p with sclk := true, sda := last.getLsbD 0 } := by
  induction bs generalizing p with
  | nil => exact foldl_onEvent_cells last p
  | cons b bs ih => rw [List.cons_append, List.flatMap_cons, List.foldl_append, foldl_onEvent_cells, ih]

/-- After any frame SCLK is 1, SDA the last bit sent, DC the level of the frame's kind, CS inactive and RES as it was
(10_state.md R38). -/
theorem foldl_onEvent_frame (cfg : Params) (kind : Kind) (bs : List Byte) (last : Byte) (p : Pins) :
    (eventsOf (frame cfg kind (bs ++ [last]))).foldl Pins.onEvent p =
      { sclk := true, sda := last.getLsbD 0, dc := dcLevel cfg kind, cs := !cfg.csActiveLevel, res := p.res } := by
  rw [eventsOf_frame, frameEvents, List.foldl_cons, List.foldl_cons, List.foldl_append, foldl_onEvent_flatMap_cells,
    ← drive_dcLevel]
  rfl

/-- An operation that is drives and delays only, accepted and left undisturbed, finishes within the step: its events are emitted
and ERR is OK. -/
theorem State.advance_accept_plain {s : State} (hq : Quiet s) {l : List SeqOp} (hl : Plain l) :
    (s.accept (l ++ [.finish .ok])).advance = done (emitted s (eventsOf l)) .ok := by
  rw [State.accept_eq, State.advance_plain s hq true hl, State.advance_finish (emitted s (eventsOf l)) hq]
  rfl

theorem argsOk_wrCmd (b : Byte) : argsOk (.wrCmd b []) = true := rfl

theorem argsOk_wrData_iff {n : Half} {st : List Byte} : argsOk (.wrData n st) = true ↔ n.toNat ≠ 0 ∧ st.length = n.toNat := by
  simp [argsOk, countOk, operandStream, streamLength, zext]

theorem State.issue_of_argsOk {s : State} {i : Instr} (h : argsOk i = true) (prog : List SeqOp) :
    s.issue i prog = (s.accept prog).advance := by
  rw [State.issue, if_pos h]

/-- WRCMD of an undisturbed block: one command frame (41_serial_bus.md R133). -/
theorem exec_wrCmd_of_quiet {s : State} (hq : Quiet s) (b : Byte) :
    exec (.wrCmd b []) s = .next (done (emitted s (eventsOf (frame s.cfg .cmd [b]))) .ok) := by
  rw [exec, execWrCmd, State.issue_of_argsOk (argsOk_wrCmd b), writeCommand,
    State.advance_accept_plain hq (frame_plain s.cfg .cmd [b])]

/-- WRDATA of an undisturbed block: its stream as one data frame (41_serial_bus.md R134). -/
theorem exec_wrData_of_quiet {s : State} (hq : Quiet s) {n : Half} {st : List Byte} (hn : n.toNat ≠ 0)
    (hlen : st.length = n.toNat) :
    exec (.wrData n st) s = .next (done (emitted s (eventsOf (frame s.cfg .data st))) .ok) := by
  rw [exec, execWrData, State.issue_of_argsOk (argsOk_wrData_iff.2 ⟨hn, hlen⟩), writeData,
    State.advance_accept_plain hq (frame_plain s.cfg .data st)]

/-- Settles O28: the levels are those the frame's events fold to, and WRCMD and WRDATA emit one frame each. -/
theorem frameLeavesPinLevels : Obligations.FrameLeavesPinLevels := by
  refine ⟨?anyFrame, ?wrCmd, ?wrData⟩
  case anyFrame =>
    intro cfg kind bs last p
    rw [foldl_onEvent_frame]
    cases kind <;> rfl
  case wrCmd =>
    intro s b hq
    exact ⟨_, exec_wrCmd_of_quiet hq b, foldl_onEvent_frame s.cfg .cmd [] b s.pins⟩
  case wrData =>
    intro s n bs last hq hlen
    have hn : n.toNat ≠ 0 := by simp [← hlen]
    exact ⟨_, exec_wrData_of_quiet hq hn hlen, foldl_onEvent_frame s.cfg .data bs last s.pins⟩

/-! ### Power-on reset -/

theorem State.reset_pins : State.reset.pins = Pins.atReset State.reset.cfg := rfl

theorem State.reset_trace : State.reset.trace = resetDrives State.reset.cfg := rfl

/-- The five drives of reset, oldest first: SCLK, SDA, DC, CS, RES (10_state.md R35). -/
theorem resetDrives_reverse (cfg : Params) :
    (resetDrives cfg).reverse =
      [.drive .sclk false, .drive .sda false, .drive .dc (!cfg.dcCmdLevel), .drive .cs (!cfg.csActiveLevel),
        .drive .res (!cfg.resActiveLevel)] := rfl

/-- Settles O59: the state after power-on reset, field by field. -/
theorem resetValues : Obligations.ResetValues := by
  refine ⟨rfl, ?pins, ?trace⟩
  case pins => rw [State.reset_pins, Pins.atReset]
  case trace => rw [State.reset_trace, resetDrives_reverse]

end Sys2Proof.Machine

/-! The frame-buffer family (40_framebuffer.md): what each compositing operation of an undisturbed block answers, cell by cell and
pixel by pixel, and what follows for an operation done twice and for PLOTIMAGE below device row 0. -/

namespace Sys2Proof.Machine

open Sys2Proof.Safety

/-! ### Cells and pixels -/

@[simp] theorem done_fbByte (s : State) (code : Err) (p c : Int) : (done s code).fbByte p c = s.fbByte p c := rfl

@[simp] theorem pixel_done (s : State) (code : Err) (X Y : Int) : pixel (done s code) X Y = pixel s X Y := rfl

theorem pageOf_logicalRow (p : Int) {b : Nat} (hb : b < 8) : pageOf (127 - (8 * p + b)) = p := by
  rw [pageOf, devRow, Int.fdiv_eq_ediv_of_nonneg _ (by decide)]
  omega

theorem bitPosOf_logicalRow (p : Int) {b : Nat} (hb : b < 8) : bitPosOf (127 - (8 * p + b)) = b := by
  rw [bitPosOf, devRow, Int.fmod_eq_emod_of_nonneg _ (by decide)]
  omega

theorem inPix_logicalRow {p c : Int} (hp : inFB p c = true) {b : Nat} (hb : b < 8) : inPix c (127 - (8 * p + b)) = true := by
  rw [inFB_iff] at hp
  simp only [inPix, Bool.and_eq_true, decide_eq_true_eq]
  omega

/-- A bit of a cell is the pixel of its device row (20_memory.md R54). -/
theorem getLsbD_fbByte (s : State) (p c : Int) {b : Nat} (hb : b < 8) :
    (s.fbByte p c).getLsbD b = pixel s c (127 - (8 * p + b)) := by
  rw [pixel, pageOf_logicalRow p hb, bitPosOf_logicalRow p hb]

/-- Two states with the same pixels in the window have the same cells. -/
theorem sameFb_of_pixel {s t : State} (h : ∀ X Y : Int, inPix X Y = true → pixel t X Y = pixel s X Y) : SameFb s t := by
  intro p c hp
  refine BitVec.eq_of_getLsbD_eq fun b hb => ?_
  rw [getLsbD_fbByte t p c hb, getLsbD_fbByte s p c hb, h _ _ (inPix_logicalRow hp hb)]

theorem getLsbD_bit (k : Nat) {i : Nat} (hi : i < 8) : (bit k).getLsbD i = decide (i = k) := by
  rw [bit, BitVec.getLsbD_ofNat, Nat.testBit_two_pow, decide_eq_true hi, Bool.true_and]
  exact decide_eq_decide.2 eq_comm

theorem fbByte_doFb_clear (s : State) {p c : Int} (hp : inFB p c = true) : (s.doFb .clear).fbByte p c = 0#8 := by
  simp only [State.doFb, State.clearAll, State.fbByte, State.fbCell, Memory.lookup_tabulate _ (fbIndex_lt hp), Option.getD_some]

theorem fbByte_doFb_reverse (s : State) {p c : Int} (hp : inFB p c = true) :
    (s.doFb .reverse).fbByte p c = s.fbByte p c ^^^ 0xFF#8 := by
  rw [State.doFb, State.reverseAll, State.fbByte, State.fbCell, Memory.lookup_tabulate _ (fbIndex_lt hp), Option.getD_some,
    State.fbByte]

theorem pixel_doFb_clearArea (s : State) (x y : Int) (w h : Nat) {X Y : Int} (hin : inPix X Y = true) :
    pixel (s.doFb (.clearArea x y w h)) X Y = (pixel s X Y && !inRect x y w h X Y) := by
  have hbit : ∀ (k : Nat) (v : Byte) (i : Nat), i < 8 →
      (v &&& ~~~ bit k).getLsbD i = if i = k then false else v.getLsbD i := by
    intro k v i hi
    rw [BitVec.getLsbD_and, BitVec.getLsbD_not, getLsbD_bit k hi]
    by_cases hk : i = k <;> simp [hk, hi]
  rw [State.doFb, State.clearAreaBody, State.pixel_forPixels _ (fun _ => false) hbit hin]
  cases inRect x y w h X Y <;> simp

/-- What CLEARAREA does to a bit of a cell, its device row turned back into a logical row. -/
theorem getLsbD_fbByte_doFb_clearArea (s : State) (x y : Int) (w h : Nat) {p c : Int} (hp : inFB p c = true) {b : Nat}
    (hb : b < 8) :
    ((s.doFb (.clearArea x y w h)).fbByte p c).getLsbD b =
      ((s.fbByte p c).getLsbD b && !inRect x y w h c (127 - (8 * p + b))) := by
  rw [getLsbD_fbByte _ p c hb, pixel_doFb_clearArea s x y w h (inPix_logicalRow hp hb), ← getLsbD_fbByte s p c hb]

theorem pixel_doFb_reverseArea (s : State) (x y : Int) (w h : Nat) {X Y : Int} (hin : inPix X Y = true) :
    pixel (s.doFb (.reverseArea x y w h)) X Y = (pixel s X Y ^^ inRect x y w h X Y) := by
  have hbit : ∀ (k : Nat) (v : Byte) (i : Nat), i < 8 →
      (v ^^^ bit k).getLsbD i = if i = k then !v.getLsbD i else v.getLsbD i := by
    intro k v i hi
    rw [BitVec.getLsbD_xor, getLsbD_bit k hi]
    by_cases hk : i = k <;> simp [hk]
  rw [State.doFb, State.reverseAreaBody, State.pixel_forPixels _ (fun b => !b) hbit hin]
  cases inRect x y w h X Y <;> simp

/-! ### An undisturbed compositing operation -/

@[simp] theorem State.doFb_host (s : State) (op : FbOp) : (s.doFb op).host = s.host := by
  have h := State.doFb_sameButFb s op
  rw [State.sameButFb] at h
  rw [h]

/-- A compositing operation leaves the block ready for another undisturbed one. -/
theorem quiet_done_doFb {s : State} (hq : Quiet s) (op : FbOp) (code : Err) : Quiet (done (s.doFb op) code) :=
  (State.doFb_host s op).trans hq

theorem State.issue_fb {s : State} (hq : Quiet s) {i : Instr} (hi : argsOk i = true) (op : FbOp) :
    s.issue i [.fb op, .finish .ok] = done (s.doFb op) .ok := by
  rw [State.issue_of_argsOk hi, State.advance_fb s hq]

theorem exec_clear_of_quiet {s : State} (hq : Quiet s) : exec (.clear []) s = .next (done (s.doFb .clear) .ok) := by
  rw [exec, execClear, State.issue_fb hq rfl]

theorem exec_reverse_of_quiet {s : State} (hq : Quiet s) : exec (.reverse []) s = .next (done (s.doFb .reverse) .ok) := by
  rw [exec, execReverse, State.issue_fb hq rfl]

theorem exec_clearArea_of_quiet {s : State} (hq : Quiet s) (x y : Half) (w h : Byte) :
    exec (.clearArea x y w h []) s = .next (done (s.doFb (.clearArea x.toInt y.toInt w.toNat h.toNat)) .ok) := by
  rw [exec, execClearArea, State.issue_fb hq rfl, sext16, sext16, zext, zext]

theorem exec_reverseArea_of_quiet {s : State} (hq : Quiet s) (x y : Half) (w h : Byte) :
    exec (.reverseArea x y w h []) s = .next (done (s.doFb (.reverseArea x.toInt y.toInt w.toNat h.toNat)) .ok) := by
  rw [exec, execReverseArea, State.issue_fb hq rfl, sext16, sext16, zext, zext]

theorem argsOk_plotImage_iff {x y : Half} {w h : Byte} {st : List Byte} :
    argsOk (.plotImage x y w h st) = true ↔ st.length = (h.toNat + 7) / 8 * w.toNat := by
  simp [argsOk, countOk, operandStream, streamLength, stripCount, zext]

theorem exec_plotImage_of_quiet {s : State} (hq : Quiet s) (x y : Half) (w h : Byte) {st : List Byte}
    (hlen : st.length = (h.toNat + 7) / 8 * w.toNat) :
    exec (.plotImage x y w h st) s = .next (done (s.doFb (.plot x.toInt y.toInt w.toNat h.toNat st)) .ok) := by
  rw [exec, execPlotImage, State.issue_fb hq (argsOk_plotImage_iff.2 hlen), sext16, sext16, zext, zext]

/-! ### An operation done twice (40_framebuffer.md R112, R113) -/

/-- Settles O23: every pixel, and every byte, is XORed with the same value twice. -/
theorem reverseTwiceRestores : Obligations.ReverseTwiceRestores := by
  intro s hq
  refine ⟨fun x y w h => ?area, ?whole⟩
  case area =>
    refine ⟨_, _, exec_reverseArea_of_quiet hq x y w h, exec_reverseArea_of_quiet (quiet_done_doFb hq _ _) x y w h,
      sameFb_of_pixel fun X Y hin => ?_⟩
    rw [pixel_done, pixel_doFb_reverseArea _ _ _ _ _ hin, pixel_done, pixel_doFb_reverseArea _ _ _ _ _ hin, Bool.xor_assoc,
      Bool.xor_self, Bool.xor_false]
  case whole =>
    refine ⟨_, _, exec_reverse_of_quiet hq, exec_reverse_of_quiet (quiet_done_doFb hq _ _), fun p c hp => ?_⟩
    rw [done_fbByte, fbByte_doFb_reverse _ hp, done_fbByte, fbByte_doFb_reverse _ hp, BitVec.xor_assoc, BitVec.xor_self,
      BitVec.xor_zero]

/-- Settles O24: a byte that CLEAR writes is 0x00 whatever it was, and a pixel is masked by the same rectangle twice. -/
theorem clearIsIdempotent : Obligations.ClearIsIdempotent := by
  intro s hq
  refine ⟨?whole, fun x y w h => ?area⟩
  case whole =>
    refine ⟨_, _, exec_clear_of_quiet hq, exec_clear_of_quiet (quiet_done_doFb hq _ _), fun p c hp => ?_, fun p c hp => ?_⟩
    · rw [done_fbByte, fbByte_doFb_clear _ hp, done_fbByte, fbByte_doFb_clear _ hp]
    · rw [done_fbByte, fbByte_doFb_clear _ hp]
  case area =>
    refine ⟨_, _, exec_clearArea_of_quiet hq x y w h, exec_clearArea_of_quiet (quiet_done_doFb hq _ _) x y w h,
      sameFb_of_pixel fun X Y hin => ?_⟩
    rw [pixel_done, pixel_doFb_clearArea _ _ _ _ _ hin, pixel_done, pixel_doFb_clearArea _ _ _ _ _ hin, Bool.and_assoc,
      Bool.and_self]

/-! ### PLOTIMAGE below device row 0 (40_framebuffer.md R106) -/

theorem State.fbModify_of_page_neg (s : State) {p : Int} (c : Int) (f : Byte → Byte) (hp : p < 0) : s.fbModify p c f = s := by
  rw [State.fbModify, if_neg]
  rw [inFB_iff]
  omega

theorem splitDeviceY_page_neg {d : Int} (hd : d < 0) : (splitDeviceY d).1 ≤ -1 := by
  have hdiv : 0 ≤ (-d).tdiv 8 := Int.tdiv_nonneg (by omega) (by decide)
  rw [Int.neg_tdiv] at hdiv
  simp only [splitDeviceY, if_pos hd]
  omega

/-- Where the page is above the window both writes of every strip byte are clipped. -/
theorem State.orStripByte_of_page_neg (s : State) {page j : Int} (shift c : Int) (v : Byte) (hpage : page ≤ -1) (hj : 0 ≤ j) :
    s.orStripByte page shift j c v = s := by
  rw [State.orStripByte, State.fbModify_of_page_neg s c _ (by omega), State.fbModify_of_page_neg s c _ (by omega)]

/-- A loop no pass of which changes the state. -/
theorem forRange_eq_self {body : Int → State → State} (n : Nat) :
    ∀ {lo : Int} (s : State), (∀ i, lo ≤ i → body i s = s) → forRange lo n body s = s := by
  induction n with
  | zero => intro lo s _; rfl
  | succ n ih =>
    intro lo s hbody
    rw [forRange, hbody lo (Int.le_refl lo), ih s fun i hi => hbody i (by omega)]

/-- With deviceY < 0 the strips of PLOTIMAGE write nothing: only the clear of the rectangle is left. -/
theorem State.doFb_plot_of_deviceY_neg (s : State) (x : Int) {y : Int} (w : Nat) {h : Nat} (bitmap : List Byte)
    (hd : deviceYOf y h < 0) : s.doFb (.plot x y w h bitmap) = s.doFb (.clearArea x y w h) := by
  have hpage := splitDeviceY_page_neg hd
  show s.plotBody x y w h bitmap = s.clearAreaBody x y w h
  rw [State.plotBody]
  exact forRange_eq_self _ _ fun j hj => forRange_eq_self _ _ fun i _ => State.orStripByte_of_page_neg _ _ _ _ hpage hj

theorem exec_plotImage_of_deviceY_neg {s : State} (hq : Quiet s) (x y : Half) (w h : Byte) {st : List Byte}
    (hlen : st.length = (h.toNat + 7) / 8 * w.toNat) (hd : deviceYOf y.toInt h.toNat < 0) :
    exec (.plotImage x y w h st) s = exec (.clearArea x y w h []) s := by
  rw [exec_plotImage_of_quiet hq x y w h hlen, exec_clearArea_of_quiet hq, State.doFb_plot_of_deviceY_neg s _ _ _ hd]

/-- Settles O19: with deviceY < 0 every strip is clipped, so PLOTIMAGE is the CLEARAREA of its rectangle, and the spec's example is
read off bit by bit. -/
theorem plotImageNegativeDeviceYOnlyClears : Obligations.PlotImageNegativeDeviceYOnlyClears := by
  refine ⟨?general, ?specExample⟩
  case general =>
    intro s x y w h st hq hlen hd
    exact ⟨splitDeviceY_page_neg hd, exec_plotImage_of_deviceY_neg hq x y w h hlen hd⟩
  case specExample =>
    intro s hq hff
    have hplot := exec_plotImage_of_deviceY_neg (st := [0xFF#8]) hq 0#16 121#16 1#8 8#8 (by decide) (by decide)
    refine ⟨by decide, _, hplot.trans (exec_clearArea_of_quiet hq _ _ _ _), ?_⟩
    have hbits : ∀ b < 8,
        ((0xFF#8).getLsbD b && !inRect (0#16).toInt (121#16).toInt (1#8).toNat (8#8).toNat 0 (127 - (8 * 0 + b))) =
          (0x80#8).getLsbD b := by
      decide
    refine BitVec.eq_of_getLsbD_eq fun b hb => ?_
    rw [done_fbByte, getLsbD_fbByte_doFb_clearArea s _ _ _ _ (by decide) hb, hff 0 0 (by decide), hbits b hb]

end Sys2Proof.Machine

/-! The serial-bus family (41_serial_bus.md): what a receiver on the pins sees of a bit cell and of a byte. -/

namespace Sys2Proof.Machine

open Sys2Proof.Safety

/-! ### The bits a receiver samples -/

/-- A bit cell whose bit does not complete a byte: the receiver takes the bit at the one rising edge of SCLK
(30_encoding.md R79). -/
theorem byteView_bitCell_append_of_lt {cfg : Params} {r : Receiver} (hcs : r.cs = cfg.csActiveLevel)
    (hlen : r.bits.length < 7) (b : Level) (es : List Event) :
    byteView cfg r (eventsOf (bitCell b) ++ es) =
      byteView cfg { r with sclk := true, sda := b, bits := b :: r.bits } es := by
  simp [bitCell, eventsOf, SeqOp.event, byteView, Receiver.see, hcs, hlen.ne]

/-- The bit cell of the eighth bit: the receiver sees a byte and holds no bit after it. -/
theorem byteView_bitCell_append_of_eq {cfg : Params} {r : Receiver} (hcs : r.cs = cfg.csActiveLevel)
    (hlen : r.bits.length = 7) (b : Level) (es : List Event) :
    byteView cfg r (eventsOf (bitCell b) ++ es) =
      .byte (kindOfLevel cfg r.dc) ((BitVec.ofBoolListLE (b :: r.bits)).setWidth 8) ::
        byteView cfg { r with sclk := true, sda := b, bits := [] } es := by
  simp [bitCell, eventsOf, SeqOp.event, byteView, Receiver.see, hcs, hlen]

/-- A byte is what its eight bits make, least significant first. -/
theorem setWidth_ofBoolListLE_bits (v : Byte) :
    (BitVec.ofBoolListLE [v.getLsbD 0, v.getLsbD 1, v.getLsbD 2, v.getLsbD 3, v.getLsbD 4, v.getLsbD 5, v.getLsbD 6,
      v.getLsbD 7]).setWidth 8 = v := by
  refine BitVec.eq_of_getLsbD_eq fun i hi => ?_
  rw [BitVec.getLsbD_setWidth, decide_eq_true hi, Bool.true_and, BitVec.getLsbD_ofBoolListLE]
  interval_cases i <;> rfl

/-! ### A byte on the wire (41_serial_bus.md R130) -/

/-- The cells of a byte, followed by any events: a selected receiver with no bit pending sees the byte, and holds no bit when
it comes to the events after it. -/
theorem byteView_cells_append {cfg : Params} {r : Receiver} (hcs : r.cs = cfg.csActiveLevel) (hbits : r.bits = []) (v : Byte)
    (es : List Event) :
    byteView cfg r (cells v ++ es) =
      .byte (kindOfLevel cfg r.dc) v :: byteView cfg { r with sclk := true, sda := v.getLsbD 0, bits := [] } es := by
  rw [← eventsOf_shiftByte, shiftByte, eventsOf_flatMap]
  simp only [List.flatMap_cons, List.flatMap_nil, List.append_assoc, List.nil_append]
  iterate 7 rw [byteView_bitCell_append_of_lt (by exact hcs) (by simp [hbits])]
  rw [byteView_bitCell_append_of_eq (by exact hcs) (by simp [hbits]), hbits, setWidth_ofBoolListLE_bits]

/-- Settles O26: the events are the cells of the byte, whatever the pins hold, and a receiver takes one bit from each cell. -/
theorem shiftByteEmitsEightCells : Obligations.ShiftByteEmitsEightCells := by
  intro v
  refine ⟨eventsOf_shiftByte v, rfl, foldl_onEvent_cells v, fun cfg r hcs hbits => ?seen⟩
  case seen =>
    have h := byteView_cells_append hcs hbits v []
    rwa [List.append_nil, byteView] at h

end Sys2Proof.Machine

/-! The panel-controller family (42_panel_controller.md): the issue of UPDATE where PSTATE does not admit it. -/

namespace Sys2Proof.Machine

open Sys2Proof.Safety

/-! ### Receipt and rejection -/

/-- The decoded operation of an issue received while no operation runs (30_encoding.md R70, R77). -/
theorem State.handleIssue_of_decode {s : State} (hb : s.busyOp = false) {d : Desc} {st : List Byte} {i : Instr}
    (hi : decode s.cfg.hasBoundedWait (.host d st) = .ok i) : s.handleIssue d st = exec i s.receiveIssue := by
  rw [State.handleIssue, hb, if_neg Bool.false_ne_true, hi]

/-- At rest there is nothing for Finish to clear, so a rejection writes ERR alone (60_exceptions.md R221). -/
theorem State.raise_of_idle {s : State} (hidle : Idle s) (hb : s.busyOp = false) (e : Err) :
    s.raise e = { s with err := e } := by
  rw [State.raise, State.finish, ← show s.seq = [] from hidle, ← hb]

/-! ### UPDATE outside IDLE (42_panel_controller.md R167) -/

theorem decode_updateDesc (b : Bool) : decode b (.host 0x000000000000000A#64 []) = .ok (.update []) := by
  cases b <;> rfl

theorem argsOk_update : argsOk (.update []) = true := rfl

theorem exec_update_of_not_idle {s : State} (hp : s.pstate ≠ .idle) : exec (.update []) s = .next (s.raise .eseq) := by
  rw [exec, execUpdate, if_pos argsOk_update, if_neg hp]

/-- Settles O44: the issue is received and decodes to UPDATE, whose arguments are in order, so the check of PSTATE decides. -/
theorem updateOutsideIdleIsEseq : Obligations.UpdateOutsideIdleIsEseq := by
  intro s g r hidle hbusy hp hhost
  have hland : Lands s (.issue 0x000000000000000A#64 []) r := ⟨g, hhost, .inr hidle⟩
  rw [step_of_lands hland, State.handleInput, State.handleIssue_of_decode (by exact hbusy) (decode_updateDesc _),
    exec_update_of_not_idle (by exact hp), State.raise_of_idle (by exact hidle) (by exact hbusy), State.receiveIssue]

end Sys2Proof.Machine

/-! The exceptions family (60_exceptions.md): what an issue that decode rejects does, and what an issue made during an operation
does. -/

namespace Sys2Proof.Machine

open Sys2Proof.Safety

/-- Settles O11: the issue lands, and the handling of an issue that lands during an operation is the drop. -/
theorem issueWhileRunningIsDropped : Obligations.IssueWhileRunningIsDropped := by
  intro s d st r hbusy hland
  rw [step_of_lands hland, State.handleInput, State.handleIssue_of_busy (by exact hbusy), State.dropIssue]

/-! ### Decode steps 1 and 2 (30_encoding.md R77): the operation an OP value selects and the zero bits of its format -/

theorem toNat_fieldOp (d : Desc) : (fieldOp d).toNat = d.toNat % 16 := by
  rw [fieldOp, BitVec.extractLsb'_toNat, Nat.shiftRight_zero]

theorem toNat_fieldA (d : Desc) : (fieldA d).toNat = d.toNat / 2 ^ 8 % 65536 := by
  rw [fieldA, BitVec.extractLsb'_toNat, Nat.shiftRight_eq_div_pow]

theorem toNat_fieldW (d : Desc) : (fieldW d).toNat = d.toNat / 2 ^ 40 % 256 := by
  rw [fieldW, BitVec.extractLsb'_toNat, Nat.shiftRight_eq_div_pow]

theorem toNat_fieldH (d : Desc) : (fieldH d).toNat = d.toNat / 2 ^ 48 % 256 := by
  rw [fieldH, BitVec.extractLsb'_toNat, Nat.shiftRight_eq_div_pow]

/-- The reserved OP values (30_encoding.md R76). -/
theorem hostOpOf_eq_none_iff {b : Bool} {c : BitVec 4} :
    hostOpOf b c = none ↔ c.toNat = 0x0 ∨ c.toNat = 0xD ∨ c.toNat = 0xE ∨ c.toNat = 0xF ∨ (c.toNat = 0xC ∧ b = false) := by
  revert b c
  decide

theorem hostOpOf_eq_some {b : Bool} {c : BitVec 4} {op : HostOp} (h : hostOpOf b c = some op) :
    c = hostCode op ∧ (op = .waitBusyB → b = true) := by
  revert b c
  cases op <;> decide

theorem zeroBits_hostFormat (op : HostOp) : zeroBits (hostFormat op) = zeroBitsOfOp (hostCode op).toNat := by
  cases op <;> rfl

/-! ### Decode steps 3 to 5: the operands, the stream and PSTATE -/

/-- Decode steps 3 to 5 of 30_encoding.md R77 on a decoded host operation: EARG for its arguments, then ESEQ for an UPDATE
outside IDLE. -/
def instrRejection (p : PState) (i : Instr) : Option Err :=
  if argsOk i then
    if i = .update [] ∧ p ≠ .idle then some .eseq else none
  else some .earg

section
variable {d : Desc} {st : List Byte} {op : HostOp}

@[simp] theorem operandStream_assembleHost : operandStream (assembleHost op d st) = st := by
  cases op <;> rfl

theorem streamLength_assembleHost (hop : d.toNat % 16 = (hostCode op).toNat) :
    streamLength (assembleHost op d st) = streamLengthOfDesc d := by
  rw [streamLengthOfDesc, hop]
  cases op with
  | plotImage => rw [← toNat_fieldH, ← toNat_fieldW]; rfl
  | wrData => rw [← toNat_fieldA]; rfl
  | _ => rfl

/-- The count that decode step 3 checks is the operand in field A. -/
theorem countOk_assembleHost_eq_false_iff (hop : d.toNat % 16 = (hostCode op).toNat) :
    countOk (assembleHost op d st) = false ↔
      (d.toNat % 16 = 0x7 ∧ d.toNat / 2 ^ 8 % 65536 = 0) ∨ (d.toNat % 16 = 0xC ∧ d.toNat / 2 ^ 8 % 65536 = 0) := by
  rw [hop, ← toNat_fieldA]
  cases op <;> simp [assembleHost, countOk, hostCode, zext]

theorem assembleHost_eq_update_iff (hop : d.toNat % 16 = (hostCode op).toNat) (hlen : st.length = streamLengthOfDesc d) :
    assembleHost op d st = .update [] ↔ d.toNat % 16 = 0xA := by
  rw [← streamLength_assembleHost (st := st) hop] at hlen
  rw [hop]
  cases op with
  | update => simpa [assembleHost, hostCode] using List.length_eq_zero_iff.1 hlen
  | _ => simp [assembleHost, hostCode]

end

/-! ### The checks of R77 agree with the decoder and the meanings -/

/-- Decode steps 1 and 2 are the checks the decoder makes; both name EILLOP. -/
theorem rejection_of_decode_error {cfg : Params} {d : Desc} {st : List Byte} {x : DecodeError}
    (h : decode cfg.hasBoundedWait (.host d st) = .error x) (p : PState) : rejection cfg p d st = some .eillop := by
  rw [decode, decodeHost] at h
  split at h
  case h_1 hnone =>
    rw [hostOpOf_eq_none_iff, toNat_fieldOp] at hnone
    rw [rejection, if_pos hnone]
  case h_2 op hsome =>
    split at h
    case isTrue => cases h
    case isFalse hz =>
      obtain ⟨hcode, -⟩ := hostOpOf_eq_some hsome
      rw [zeroBits_hostFormat, ← hcode, toNat_fieldOp] at hz
      rw [rejection, if_pos hz, ite_self]

theorem decode_host_ok {b : Bool} {d : Desc} {st : List Byte} {i : Instr} (h : decode b (.host d st) = .ok i) :
    ∃ op, hostOpOf b (fieldOp d) = some op ∧ d &&& zeroBits (hostFormat op) = 0#64 ∧ i = assembleHost op d st := by
  rw [decode, decodeHost] at h
  split at h
  case h_1 => cases h
  case h_2 op hop =>
    split at h
    case isTrue hz => cases h; exact ⟨op, hop, hz, rfl⟩
    case isFalse => cases h

/-- Past steps 1 and 2, the checks on the descriptor's bits are the checks on the operands of the decoded instruction. -/
theorem rejection_of_decode_ok {cfg : Params} {d : Desc} {st : List Byte} {i : Instr}
    (h : decode cfg.hasBoundedWait (.host d st) = .ok i) (p : PState) : rejection cfg p d st = instrRejection p i := by
  obtain ⟨op, hsome, hz, rfl⟩ := decode_host_ok h
  have hlisted : hostOpOf cfg.hasBoundedWait (fieldOp d) ≠ none := by simp [hsome]
  obtain ⟨hcode, -⟩ := hostOpOf_eq_some hsome
  rw [Ne, hostOpOf_eq_none_iff, toNat_fieldOp] at hlisted
  rw [zeroBits_hostFormat, ← hcode, toNat_fieldOp] at hz
  have hop : d.toNat % 16 = (hostCode op).toNat := by rw [← toNat_fieldOp, hcode]
  rw [rejection, if_neg hlisted, if_neg (not_not.2 hz), instrRejection, argsOk, operandStream_assembleHost,
    streamLength_assembleHost hop]
  by_cases hcount : countOk (assembleHost op d st) = false
  · rw [if_pos ((countOk_assembleHost_eq_false_iff hop).1 hcount)]
    simp [hcount]
  · rw [if_neg (mt (countOk_assembleHost_eq_false_iff hop).2 hcount)]
    by_cases hlen : st.length = streamLengthOfDesc d
    · simp [hcount, hlen, assembleHost_eq_update_iff hop hlen]
    · simp [hlen]

theorem State.issue_of_not_argsOk {s : State} {i : Instr} (h : ¬argsOk i = true) (prog : List SeqOp) :
    s.issue i prog = s.raise .earg := if_neg h

/-- WAITBUSYB makes its argument checks only where HAS_BOUNDED_WAIT is true; elsewhere it is a reserved encoding. -/
theorem exec_assembleHost_of_not_argsOk {s : State} {op : HostOp} {d : Desc} {st : List Byte}
    (hb : op = .waitBusyB → s.cfg.hasBoundedWait = true) (h : ¬argsOk (assembleHost op d st) = true) :
    exec (assembleHost op d st) s = .next (s.raise .earg) := by
  cases op with
  | waitBusyB => exact congrArg _ ((if_pos (hb rfl)).trans (State.issue_of_not_argsOk h _))
  | init => exact congrArg _ (if_neg h)
  | update => exact congrArg _ (if_neg h)
  | _ => exact congrArg _ (State.issue_of_not_argsOk h _)

/-- The meaning of a decoded instruction raises what steps 3 to 5 name, and does nothing else. -/
theorem exec_of_instrRejection {s : State} {d : Desc} {st : List Byte} {i : Instr} {e : Err}
    (hi : decode s.cfg.hasBoundedWait (.host d st) = .ok i) (h : instrRejection s.pstate i = some e) :
    exec i s = .next (s.raise e) := by
  obtain ⟨op, hsome, -, rfl⟩ := decode_host_ok hi
  obtain ⟨-, hbounded⟩ := hostOpOf_eq_some hsome
  rw [instrRejection] at h
  split at h
  case isFalse hargs =>
    cases h
    exact exec_assembleHost_of_not_argsOk hbounded hargs
  case isTrue =>
    split at h
    case isTrue hup =>
      obtain ⟨hupdate, hp⟩ := hup
      cases h
      rw [hupdate, exec_update_of_not_idle hp]
    case isFalse => cases h

/-- A rejected issue is received, and its code is raised (30_encoding.md R70, R77). -/
theorem State.handleIssue_of_rejection {s : State} (hb : s.busyOp = false) {d : Desc} {st : List Byte} {e : Err}
    (h : rejection s.cfg s.pstate d st = some e) : s.handleIssue d st = .next (s.receiveIssue.raise e) := by
  cases hdec : decode s.cfg.hasBoundedWait (.host d st) with
  | ok i =>
    rw [rejection_of_decode_ok hdec] at h
    rw [State.handleIssue_of_decode hb hdec]
    exact exec_of_instrRejection (s := s.receiveIssue) hdec h
  | error x =>
    rw [rejection_of_decode_error hdec, Option.some.injEq] at h
    rw [State.handleIssue, hb, if_neg Bool.false_ne_true, hdec, h]

/-- Settles O8: the issue lands, is received and its code raised, and nothing runs that Finish would clear. -/
theorem decodeErrorOnlySetsErr : Obligations.DecodeErrorOnlySetsErr := by
  intro s g d st r e hidle hbusy hhost hrej
  have hland : Lands s (.issue d st) r := ⟨g, hhost, .inr hidle⟩
  rw [step_of_lands hland, State.handleInput, State.handleIssue_of_rejection (by exact hbusy) (by exact hrej),
    State.raise_of_idle (by exact hidle) (by exact hbusy), State.receiveIssue]

end Sys2Proof.Machine

/-! The reset family (70_reset_and_hazards.md): what a block reset leaves, at whatever moment it lands. -/

namespace Sys2Proof.Machine

open Sys2Proof.Safety

theorem step_of_blockReset_lands {s : State} {r : List Arrival} (h : Lands s .blockReset r) :
    step s = .next (State.blockReset { s with host := r }) := by
  rw [step_of_lands h, State.handleInput]

/-- No cell of the frame buffer outlives a block reset: each holds this reset's draw (R240). -/
theorem State.fbCell_blockReset (s : State) (a : Nat) : s.blockReset.fbCell a = Config.fbDraw (s.resets + 1) a := rfl

/-- The reset drives, in order, follow all that was emitted before them. -/
theorem State.blockReset_trace_reverse (s : State) :
    s.blockReset.trace.reverse = s.trace.reverse ++ [.drive .sclk false, .drive .sda false, .drive .dc (!s.cfg.dcCmdLevel),
      .drive .cs (!s.cfg.csActiveLevel), .drive .res (!s.cfg.resActiveLevel)] := by
  rw [State.blockReset_trace, List.reverse_append, resetDrives_reverse]

/-- Settles O58: the step at which the reset lands is the block reset, whatever runs, and the items of R240 are its fields. -/
theorem blockResetEffect : Obligations.BlockResetEffect := by
  intro s r hland
  refine ⟨_, step_of_blockReset_lands hland, State.blockReset_seq _, State.blockReset_pstate _, State.blockReset_err _,
    State.blockReset_busyOp _, State.blockReset_ovr _, State.blockReset_result _, State.blockReset_cfg _,
    State.blockReset_trace_reverse _, ?pins, State.fbCell_blockReset _⟩
  case pins => rw [State.blockReset_pins, Pins.atReset]

end Sys2Proof.Machine

/-! The whole machine: what one micro-operation can do, said once, and the invariants that every step keeps. -/

namespace Sys2Proof.Machine

open Sys2Proof.Safety

/-! ### One micro-operation -/

/-- What a micro-operation, with `rest` after it, can make of the state: one constructor per outcome. -/
inductive MicroTo (s : State) (rest : List SeqOp) : SeqOp → State → Prop where
  | drive (pin : Pin) (l : Level) : MicroTo s rest (.drive pin l) { (s.drive pin l).tick with seq := rest }
  | delay (ms : Nat) : MicroTo s rest (.delay ms) { (s.delay ms).tick with seq := rest }
  | setPState (p : PState) : MicroTo s rest (.setPState p) { s.tick with pstate := p, seq := rest }
  | pollBusy : MicroTo s rest .poll { s.sample.tick with seq := .poll :: rest }
  | pollDone : MicroTo s rest .poll { s.sample.tick with seq := rest }
  | timeout : MicroTo s rest (.pollBounded 0) (s.tick.finish .etimeout)
  | pollBoundedBusy (n : Nat) : MicroTo s rest (.pollBounded (n + 1)) { s.sample.tick with seq := .pollBounded n :: rest }
  | pollBoundedDone (n : Nat) :
      MicroTo s rest (.pollBounded (n + 1)) { s.sample.tick with seq := [.delay s.cfg.tSettleMs, .finish .ok] }
  | wire (b : Byte) (p : List Byte) : MicroTo s rest (.wire b p) { s with seq := wireOps s.cfg b p ++ rest }
  | fb (f : FbOp) : MicroTo s rest (.fb f) { (s.doFb f).tick with seq := rest }
  | finish (code : Err) : MicroTo s rest (.finish code) (s.tick.finish code)
  | finishIdle : MicroTo s rest .finishIdle (({ s.tick with pstate := .idle } : State).finish .ok)

theorem State.microTo_micro (s : State) (op : SeqOp) (rest : List SeqOp) : MicroTo s rest op (s.micro op rest).1 := by
  cases op with
  | poll =>
    rw [State.micro]
    split
    · exact .pollBusy
    · exact .pollDone
  | pollBounded n =>
    cases n with
    | zero => exact .timeout
    | succ n =>
      rw [State.micro]
      split
      · exact .pollBoundedBusy n
      · exact .pollBoundedDone n
  | drive pin l => exact .drive pin l
  | delay ms => exact .delay ms
  | setPState p => exact .setPState p
  | wire b p => exact .wire b p
  | fb f => exact .fb f
  | finish code => exact .finish code
  | finishIdle => exact .finishIdle

/-- All that a compositing operation may write. -/
theorem State.doFb_eq (s : State) (f : FbOp) : s.doFb f = { s with fb := (s.doFb f).fb, result := (s.doFb f).result } :=
  State.doFb_sameButFb s f

/-! ### The frame buffer (40_framebuffer.md R111) -/

theorem MicroTo.keeps_fbInv {s u : State} {op : SeqOp} {rest : List SeqOp} (hu : MicroTo s rest op u) (h : FbInv s) :
    FbInv u := by
  cases hu with
  | fb f => exact State.doFb_wf s f h
  | _ => exact h

/-- Settles O51: a reset lists no cell, the compositing operations keep the canonical form, and nothing else writes a cell. -/
theorem stepKeepsFrameBufferForm : Obligations.StepKeepsFrameBufferForm := by
  intro s t hs hstep
  refine step_keeps (P := FbInv) (fun _ _ h => h) (fun _ _ h => h) (fun _ _ h => h) (fun _ _ _ h => h)
    (fun _ _ _ _ _ _ h => h) (fun _ _ => rfl) ?micro hs hstep
  case micro => exact fun s op rest _ h => (s.microTo_micro op rest).keeps_fbInv h

/-! ### BUSYOP and the resting values of PSTATE (10_state.md R25, R29) -/

theorem settles_append_of_plain {l : List SeqOp} (hl : Plain l) (r : List SeqOp) (p : PState) :
    settles (l ++ r) p = settles r p := by
  induction l with
  | nil => rfl
  | cons op l ih =>
    have hop : op.event.isSome = true := hl op List.mem_cons_self
    have htail := ih fun o ho => hl o (List.mem_cons_of_mem op ho)
    cases op with
    | drive pin l' => exact htail
    | delay ms => exact htail
    | _ => simp [SeqOp.event] at hop

/-- An operation that settles is not over. -/
theorem runInv_of_settles {s : State} (hb : s.busyOp = true) (h : settles s.seq s.pstate = true) : RunInv s := by
  refine .inr ⟨fun hnil => ?_, hb, h⟩
  rw [hnil] at h
  exact Bool.false_ne_true h

theorem runInv_of_finished {s : State} (hb : s.busyOp = false) (hnil : s.seq = []) (h : s.pstate.resting = true) : RunInv s :=
  .inl ⟨hnil, hb, h⟩

theorem runInv_of_not_busy {s : State} (h : RunInv s) (hb : s.busyOp = false) : s.seq = [] ∧ s.pstate.resting = true := by
  rcases h with ⟨hnil, -, hrest⟩ | ⟨-, hbusy, -⟩
  · exact ⟨hnil, hrest⟩
  · rw [hb] at hbusy; cases hbusy

theorem runInv_of_seq_cons {s : State} {op : SeqOp} {rest : List SeqOp} (h : RunInv s) (hseq : s.seq = op :: rest) :
    s.busyOp = true ∧ settles (op :: rest) s.pstate = true := by
  rcases h with ⟨hnil, -, -⟩ | ⟨-, hbusy, hset⟩
  · rw [hseq] at hnil; cases hnil
  · exact ⟨hbusy, hseq ▸ hset⟩

/-- Every host operation, accepted where PSTATE is a resting value, leaves a resting value. -/
theorem settles_launch {s : State} {i : Instr} {q : PState} {prog : List SeqOp} (hl : launch s i = some (q, prog))
    (hp : s.pstate.resting = true) : settles prog q = true := by
  cases i with
  | wrCmd b st => cases hl; exact (settles_append_of_plain (frame_plain _ _ _) _ _).trans hp
  | wrData n st => cases hl; exact (settles_append_of_plain (frame_plain _ _ _) _ _).trans hp
  | init st => cases hl; rfl
  | update st =>
    cases hl
    rw [updateOps, counterPrelude]
    cases s.cfg.updateSetCounters <;> rfl
  | clear | clearArea | reverse | reverseArea | plotImage | readFb | waitBusy | waitBusyB => cases hl; exact hp
  | _ => cases hl

theorem MicroTo.keeps_runInv {s u : State} {op : SeqOp} {rest : List SeqOp} (hu : MicroTo s rest op u)
    (hseq : s.seq = op :: rest) (h : RunInv s) : RunInv u := by
  obtain ⟨hb, hset⟩ := runInv_of_seq_cons h hseq
  cases hu with
  | timeout => exact runInv_of_finished rfl rfl hset
  | finish code => exact runInv_of_finished rfl rfl hset
  | finishIdle => exact runInv_of_finished rfl rfl rfl
  | wire b p => exact runInv_of_settles hb ((settles_append_of_plain (wireOps_plain s.cfg b p) rest _).trans hset)
  | fb f =>
    rw [State.doFb_eq]
    exact runInv_of_settles hb hset
  | _ => exact runInv_of_settles hb hset

theorem runInv_raise {s : State} (h : RunInv s) (hb : s.busyOp = false) (e : Err) : RunInv (s.raise e) :=
  runInv_of_finished rfl rfl (runInv_of_not_busy h hb).2

theorem runInv_accept {s : State} (h : RunInv s) (hb : s.busyOp = false) {i : Instr} {q : PState} {prog : List SeqOp}
    (hl : launch s i = some (q, prog)) : RunInv ({ s with pstate := q }.accept prog) :=
  runInv_of_settles rfl (settles_launch hl (runInv_of_not_busy h hb).2)

theorem runInv_blockReset (s : State) : RunInv s.blockReset := runInv_of_finished rfl rfl rfl

/-- Settles O52: an accepted operation settles, each micro-operation leaves one that settles, and a finished one rests. -/
theorem stepKeepsRestingPState : Obligations.StepKeepsRestingPState := by
  intro s t hs hstep
  exact step_keeps (P := RunInv) (fun _ _ h => h) (fun _ _ h => h) (fun _ _ h => h) (fun _ e hb h => runInv_raise h hb e)
    (fun _ _ _ _ hb hl h => runInv_accept h hb hl) (fun s _ => runInv_blockReset s)
    (fun s op rest hseq h => (s.microTo_micro op rest).keeps_runInv hseq h) hs hstep

/-! ### The pins and the transcript (10_state.md R33) -/

theorem Pins.level_drive (p : Pins) (pin q : Pin) (l : Level) :
    (p.drive q l).level pin = if q = pin then l else p.level pin := by
  cases q <;> cases pin <;> rfl

theorem pinInv_drive {s : State} (h : PinInv s) (q : Pin) (l : Level) : PinInv (s.drive q l) := by
  intro pin
  rw [State.drive_pins, State.drive_trace, lastDriven, Pins.level_drive, h pin]
  split <;> rfl

theorem MicroTo.keeps_pinInv {s u : State} {op : SeqOp} {rest : List SeqOp} (hu : MicroTo s rest op u) (h : PinInv s) :
    PinInv u := by
  cases hu with
  | drive pin l => exact pinInv_drive h pin l
  | fb f =>
    rw [State.doFb_eq]
    exact h
  | _ => exact h

theorem pinInv_blockReset (s : State) : PinInv s.blockReset := fun pin => by cases pin <;> rfl

/-- Settles O53: a drive changes its pin and the transcript together, and reset drives all five. -/
theorem stepKeepsPinsAtLastDrive : Obligations.StepKeepsPinsAtLastDrive := by
  intro s t hs hstep
  exact step_keeps (P := PinInv) (fun _ _ h => h) (fun _ _ h => h) (fun _ _ h => h) (fun _ _ _ h => h)
    (fun _ _ _ _ _ _ h => h) (fun s _ => pinInv_blockReset s)
    (fun s op rest _ h => (s.microTo_micro op rest).keeps_pinInv h) hs hstep

/-! ### CS and RES when nothing runs (10_state.md R35, R38) -/

section
variable (cfg : Params) (r : List SeqOp) (cur : Level)

theorem leftLevel_cs_flatMap_shiftByte (bs : List Byte) :
    leftLevel cfg .cs (bs.flatMap shiftByte ++ r) cur = leftLevel cfg .cs r cur := by
  induction bs with
  | nil => rfl
  | cons b bs ih => rw [List.flatMap_cons, List.append_assoc]; exact ih

theorem leftLevel_res_flatMap_shiftByte (bs : List Byte) :
    leftLevel cfg .res (bs.flatMap shiftByte ++ r) cur = leftLevel cfg .res r cur := by
  induction bs with
  | nil => rfl
  | cons b bs ih => rw [List.flatMap_cons, List.append_assoc]; exact ih

theorem leftLevel_cs_frame_append (k : Kind) (bs : List Byte) :
    leftLevel cfg .cs (frame cfg k bs ++ r) cur = leftLevel cfg .cs r (!cfg.csActiveLevel) := by
  simp only [frame, List.cons_append, List.append_assoc, List.nil_append, leftLevel, leftLevel_cs_flatMap_shiftByte, if_true]

theorem leftLevel_res_frame_append (k : Kind) (bs : List Byte) :
    leftLevel cfg .res (frame cfg k bs ++ r) cur = leftLevel cfg .res r cur := by
  simp only [frame, List.cons_append, List.append_assoc, List.nil_append, leftLevel, leftLevel_res_flatMap_shiftByte,
    reduceCtorEq, if_false]

end

/-- A payload in one burst is one frame, or none where it is empty. -/
theorem burst_eq_frames (cfg : Params) (p : List Byte) :
    ∃ bursts : List (List Byte), bursts.flatten = p ∧
      (if p.isEmpty then [] else writeData cfg p) = bursts.flatMap (frame cfg .data) := by
  split
  case isTrue hnil => exact ⟨[], (List.isEmpty_iff.1 hnil).symm, rfl⟩
  case isFalse => exact ⟨[p], List.flatten_singleton, (List.flatMap_singleton _ _).symm⟩

/-- A payload is data frames that hold its bytes in order, whatever DATA_FRAMING says (41_serial_bus.md R132). -/
theorem sendPayload_eq_frames (cfg : Params) (p : List Byte) :
    ∃ bursts : List (List Byte), bursts.flatten = p ∧ sendPayload cfg p = bursts.flatMap (frame cfg .data) := by
  rw [sendPayload]
  cases cfg.dataFraming with
  | perPayload => exact burst_eq_frames cfg p
  | perByte =>
    refine ⟨p.map fun b => [b], ?_, ?_⟩
    · rw [← List.flatMap_def, List.flatMap_singleton']
    · rw [List.flatMap_map]
      rfl

/-- A wire command is a command frame, then data frames that hold its payload. -/
theorem wireOps_eq_frames (cfg : Params) (op : Byte) (p : List Byte) :
    ∃ bursts : List (List Byte), bursts.flatten = p ∧
      wireOps cfg op p = frame cfg .cmd [op] ++ bursts.flatMap (frame cfg .data) := by
  rw [wireOps]
  split
  · obtain ⟨bursts, hp, h⟩ := burst_eq_frames cfg p
    exact ⟨bursts, hp, by rw [hostSend, h, writeCommand]⟩
  · obtain ⟨bursts, hp, h⟩ := sendPayload_eq_frames cfg p
    exact ⟨bursts, hp, by rw [emit, h, writeCommand]⟩

section
variable (cfg : Params) (r : List SeqOp) (cur : Level)

theorem leftLevel_cs_frames_append (bursts : List (List Byte)) :
    leftLevel cfg .cs (bursts.flatMap (frame cfg .data) ++ r) (!cfg.csActiveLevel) =
      leftLevel cfg .cs r (!cfg.csActiveLevel) := by
  induction bursts with
  | nil => rfl
  | cons b bs ih => rw [List.flatMap_cons, List.append_assoc, leftLevel_cs_frame_append, ih]

theorem leftLevel_res_frames_append (bursts : List (List Byte)) :
    leftLevel cfg .res (bursts.flatMap (frame cfg .data) ++ r) cur = leftLevel cfg .res r cur := by
  induction bursts with
  | nil => rfl
  | cons b bs ih => rw [List.flatMap_cons, List.append_assoc, leftLevel_res_frame_append, ih]

theorem leftLevel_cs_wireOps_append (op : Byte) (p : List Byte) :
    leftLevel cfg .cs (wireOps cfg op p ++ r) cur = leftLevel cfg .cs r (!cfg.csActiveLevel) := by
  obtain ⟨bursts, -, h⟩ := wireOps_eq_frames cfg op p
  rw [h, List.append_assoc, leftLevel_cs_frame_append, leftLevel_cs_frames_append]

theorem leftLevel_res_wireOps_append (op : Byte) (p : List Byte) :
    leftLevel cfg .res (wireOps cfg op p ++ r) cur = leftLevel cfg .res r cur := by
  obtain ⟨bursts, -, h⟩ := wireOps_eq_frames cfg op p
  rw [h, List.append_assoc, leftLevel_res_frame_append, leftLevel_res_frames_append]

end

/-- The levels of CS and RES are inactive. -/
def Deselected (cfg : Params) (cs res : Level) : Prop := cs = (!cfg.csActiveLevel) ∧ res = (!cfg.resActiveLevel)

theorem restInv_iff {s : State} :
    RestInv s ↔ Deselected s.cfg (leftLevel s.cfg .cs s.seq s.pins.cs) (leftLevel s.cfg .res s.seq s.pins.res) := Iff.rfl

/-- Every host operation, accepted with CS and RES inactive, leaves them so. -/
theorem deselected_launch {s : State} {i : Instr} {q : PState} {prog : List SeqOp} (hl : launch s i = some (q, prog))
    {cs res : Level} (h : Deselected s.cfg cs res) :
    Deselected s.cfg (leftLevel s.cfg .cs prog cs) (leftLevel s.cfg .res prog res) := by
  cases i with
  | wrCmd | wrData =>
    cases hl
    rw [Deselected]
    exact ⟨leftLevel_cs_frame_append s.cfg _ cs _ _, (leftLevel_res_frame_append s.cfg _ res _ _).trans h.2⟩
  | init st => cases hl; exact ⟨rfl, rfl⟩
  | update st =>
    cases hl
    rw [updateOps, counterPrelude]
    cases s.cfg.updateSetCounters
    · exact ⟨rfl, h.2⟩
    · exact ⟨rfl, h.2⟩
  | clear | clearArea | reverse | reverseArea | plotImage | readFb | waitBusy | waitBusyB => cases hl; exact h
  | _ => cases hl

theorem restInv_of_seq_nil {s : State} (hnil : s.seq = []) : RestInv s ↔ Deselected s.cfg s.pins.cs s.pins.res := by
  rw [restInv_iff, hnil]; rfl

theorem MicroTo.keeps_restInv {s u : State} {op : SeqOp} {rest : List SeqOp} (hu : MicroTo s rest op u)
    (hseq : s.seq = op :: rest) (h : RestInv s) : RestInv u := by
  rw [restInv_iff, hseq] at h
  cases hu with
  | drive pin l => cases pin <;> exact h
  | wire b p =>
    rw [restInv_iff]
    show Deselected s.cfg (leftLevel s.cfg .cs (wireOps s.cfg b p ++ rest) s.pins.cs)
      (leftLevel s.cfg .res (wireOps s.cfg b p ++ rest) s.pins.res)
    rw [leftLevel_cs_wireOps_append, leftLevel_res_wireOps_append]
    exact h
  | fb f => rw [State.doFb_eq]; exact h
  | _ => exact h

theorem restInv_raise {s : State} (hr : RunInv s) (h : RestInv s) (hb : s.busyOp = false) (e : Err) : RestInv (s.raise e) :=
  (restInv_of_seq_nil rfl).2 ((restInv_of_seq_nil (runInv_of_not_busy hr hb).1).1 h)

theorem restInv_accept {s : State} (hr : RunInv s) (h : RestInv s) (hb : s.busyOp = false) {i : Instr} {q : PState}
    {prog : List SeqOp} (hl : launch s i = some (q, prog)) : RestInv ({ s with pstate := q }.accept prog) :=
  deselected_launch hl ((restInv_of_seq_nil (runInv_of_not_busy hr hb).1).1 h)

/-- Settles O54: each operation ends with CS and RES inactive, by its frames and its reset pulse, and the running one by what it
has still to drive. -/
theorem stepKeepsPanelDeselectedAtRest : Obligations.StepKeepsPanelDeselectedAtRest := by
  intro s t hrun hrest hstep
  refine (step_keeps (P := fun s => RunInv s ∧ RestInv s) (fun _ _ h => h) (fun _ _ h => h) (fun _ _ h => h) ?raise ?accept
    ?reset ?micro ⟨hrun, hrest⟩ hstep).2
  case raise => exact fun s e hb h => ⟨runInv_raise h.1 hb e, restInv_raise h.1 h.2 hb e⟩
  case accept => exact fun s i q prog hb hl h => ⟨runInv_accept h.1 hb hl, restInv_accept h.1 h.2 hb hl⟩
  case reset => exact fun s _ => ⟨runInv_blockReset s, ⟨rfl, rfl⟩⟩
  case micro =>
    intro s op rest hseq h
    have hu := s.microTo_micro op rest
    exact ⟨hu.keeps_runInv hseq h.1, hu.keeps_restInv hseq h.2⟩

/-- Settles O55: nothing has been written or runs, and the reset drives leave the pins at their reset levels. -/
theorem invariantsHoldAtReset : Obligations.InvariantsHoldAtReset :=
  ⟨rfl, runInv_of_finished rfl rfl rfl, fun pin => by cases pin <;> rfl, rfl, rfl⟩

/-! ### What no step changes, and what a step adds -/

/-- Settles O56: no micro-operation writes the parameters (`State.micro_cfg`), and nothing else a step does writes them. -/
theorem parametersNeverChange : Obligations.ParametersNeverChange := by
  intro s t hstep
  exact step_keeps (P := fun u => u.cfg = s.cfg) (fun _ _ h => h) (fun _ _ h => h) (fun _ _ h => h) (fun _ _ _ h => h)
    (fun _ _ _ _ _ _ h => h) (fun _ h => h) (fun u op rest _ h => (State.micro_cfg u op rest).trans h) rfl hstep

theorem MicroTo.trace_suffix {s u : State} {op : SeqOp} {rest : List SeqOp} (hu : MicroTo s rest op u) :
    s.trace <:+ u.trace := by
  cases hu with
  | drive | delay | pollBusy | pollDone | pollBoundedBusy | pollBoundedDone => exact List.suffix_cons _ _
  | fb f => rw [State.doFb_eq]; exact List.suffix_refl _
  | _ => exact List.suffix_refl _

/-- Settles O57: a micro-operation adds at most one event, a reset its five drives, and nothing else writes the transcript. -/
theorem transcriptOnlyGrows : Obligations.TranscriptOnlyGrows := by
  intro s t hstep
  have h : s.trace <:+ t.trace :=
    step_keeps (P := fun u => s.trace <:+ u.trace) (fun _ _ h => h) (fun _ _ h => h) (fun _ _ h => h) (fun _ _ _ h => h)
      (fun _ _ _ _ _ _ h => h) (fun _ h => h.trans (List.suffix_append _ _))
      (fun u op rest _ h => h.trans (u.microTo_micro op rest).trace_suffix) List.suffix_rfl hstep
  obtain ⟨es, hes⟩ := h
  exact ⟨es, hes.symm⟩

/-! ### Every step answers a next state (60_exceptions.md R228, R229) -/

theorem exec_next (i : Instr) (s : State) : ∃ t, exec i s = .next t := by
  cases i <;> exact ⟨_, rfl⟩

theorem State.handleInput_next (s : State) (inp : Input) : ∃ t, s.handleInput inp = .next t := by
  cases inp with
  | issue d st =>
    rw [State.handleInput, State.handleIssue]
    split
    · exact ⟨_, rfl⟩
    · split
      · exact exec_next _ _
      · exact ⟨_, rfl⟩
  | _ => exact ⟨_, rfl⟩

theorem State.resume_next (s : State) : ∃ t, s.resume = .next t := by
  rw [State.resume]
  split
  · split
    · exact exec_next _ _
    · exact ⟨_, rfl⟩
  · exact ⟨_, rfl⟩

/-- Settles O50: what lands is handled, and what runs goes on, with a next state. -/
theorem everyStepAnswersNext : Obligations.EveryStepAnswersNext := by
  intro s
  rw [step]
  split
  · exact State.handleInput_next _ _
  · exact State.resume_next _

end Sys2Proof.Machine

/-! What an operation leaves unchanged, in every state and whatever arrives meanwhile: its micro-operations are of one class,
none of which writes it. -/

namespace Sys2Proof.Machine

open Sys2Proof.Safety

/-! ### Operations made of one class of micro-operations -/

/-- Every entry of the list is of the class. -/
def AllOps (C : SeqOp → Prop) (l : List SeqOp) : Prop := ∀ op ∈ l, C op

/-- What a micro-operation of the class puts in its own place is of the class too. -/
structure ClosedClass (C : SeqOp → Prop) : Prop where
  bounded : ∀ n, C (.pollBounded (n + 1)) → C (.pollBounded n) ∧ (∀ ms, C (.delay ms)) ∧ C (.finish .ok)
  wire : ∀ b p, C (.wire b p) → ∀ op : SeqOp, op.event.isSome = true → C op

theorem AllOps.cons {C : SeqOp → Prop} {op : SeqOp} {l : List SeqOp} (h : C op) (h' : AllOps C l) : AllOps C (op :: l) :=
  List.forall_mem_cons.2 ⟨h, h'⟩

theorem AllOps.nil {C : SeqOp → Prop} : AllOps C [] := List.forall_mem_nil _

theorem AllOps.append {C : SeqOp → Prop} {l m : List SeqOp} (h : AllOps C l) (h' : AllOps C m) : AllOps C (l ++ m) :=
  List.forall_mem_append.2 ⟨h, h'⟩

theorem AllOps.of_plain {C : SeqOp → Prop} {l : List SeqOp} (hC : ∀ op : SeqOp, op.event.isSome = true → C op)
    (hl : Plain l) : AllOps C l := fun op ho => hC op (hl op ho)

theorem MicroTo.keeps_allOps {C : SeqOp → Prop} (hC : ClosedClass C) {s u : State} {op : SeqOp} {rest : List SeqOp}
    (hu : MicroTo s rest op u) (hop : C op) (hrest : AllOps C rest) : AllOps C u.seq := by
  cases hu with
  | pollBusy => exact .cons hop hrest
  | timeout | finish | finishIdle => exact .nil
  | pollBoundedBusy n => exact .cons (hC.bounded n hop).1 hrest
  | pollBoundedDone n =>
    obtain ⟨-, hdelay, hfinish⟩ := hC.bounded n hop
    exact .cons (hdelay _) (.cons hfinish .nil)
  | wire b p => exact .append (.of_plain (hC.wire b p hop) (wireOps_plain s.cfg b p)) hrest
  | _ => exact hrest

/-- What an operation of one class keeps, when each micro-operation of the class keeps it. -/
theorem State.advance_keeps_of_class {P : State → Prop} {C : SeqOp → Prop} (hC : ClosedClass C)
    (hm : ∀ {s u : State} {op rest}, MicroTo s rest op u → C op → P s → P u) {s : State} (hs : AllOps C s.seq)
    (h : P s) : P s.advance := by
  refine (State.advance_keeps (P := fun u => AllOps C u.seq ∧ P u) (fun u op rest hseq hu => ?_) ⟨hs, h⟩).2
  rw [hseq] at hu
  obtain ⟨hop, hrest⟩ := List.forall_mem_cons.1 hu.1
  have hmicro := u.microTo_micro op rest
  exact ⟨hmicro.keeps_allOps hC hop hrest, hm hmicro hop hu.2⟩

/-- What a host operation keeps: what an acceptance and a rejection keep, and each micro-operation of its class. -/
theorem exec_keeps_of_class {P : State → Prop} {C : SeqOp → Prop} (hC : ClosedClass C)
    (hm : ∀ {s u : State} {op rest}, MicroTo s rest op u → C op → P s → P u) {s t : State} {i : Instr} {q : PState}
    {prog : List SeqOp} (hl : launch s i = some (q, prog)) (hprog : AllOps C prog) (hraise : ∀ e, P (s.raise e))
    (haccept : P ({ s with pstate := q }.accept prog)) (h : exec i s = .next t) : P t := by
  rcases exec_host hl h with ⟨e, rfl⟩ | rfl
  · exact hraise e
  · exact State.advance_keeps_of_class hC hm hprog haccept

/-! ### The compositing operations (40_framebuffer.md, Common properties) -/

/-- A compositing operation other than READFB changes only the frame buffer. -/
theorem State.doFb_eq_of_not_read (s : State) {f : FbOp} (hf : ∀ col pg, f ≠ .read col pg) :
    s.doFb f = { s with fb := (s.doFb f).fb } := by
  have hm : ∀ (u : State) p c g, u = { s with fb := u.fb } → u.fbModify p c g = { s with fb := (u.fbModify p c g).fb } := by
    intro u p c g hu
    rw [State.fbModify_eq, hu]
  cases f with
  | clear => rw [State.doFb, State.clearAll]
  | reverse => rw [State.doFb, State.reverseAll]
  | clearArea x y w h =>
    rw [State.doFb, State.clearAreaBody]
    exact State.forPixels_keeps (P := fun u => u = { s with fb := u.fb }) hm x y w h _ s rfl
  | reverseArea x y w h =>
    rw [State.doFb, State.reverseAreaBody]
    exact State.forPixels_keeps (P := fun u => u = { s with fb := u.fb }) hm x y w h _ s rfl
  | plot x y w h b => exact State.plotBody_keeps (P := fun u => u = { s with fb := u.fb }) hm x y w h b s rfl
  | read col pg => exact absurd rfl (hf col pg)

/-- The frame of a compositing operation that writes FB. -/
def FbFrame (s t : State) : Prop := t = { s with fb := t.fb, err := t.err, busyOp := t.busyOp, seq := t.seq, host := t.host }

/-- The frame of READFB. -/
def ReadFrame (s t : State) : Prop :=
  t = { s with result := t.result, err := t.err, busyOp := t.busyOp, seq := t.seq, host := t.host }

/-- The micro-operations of a compositing operation. -/
def FbClass (f : FbOp) (op : SeqOp) : Prop := op = .fb f ∨ op = .finish .ok

theorem closedClass_fbClass (f : FbOp) : ClosedClass (FbClass f) where
  bounded n h := by simp [FbClass] at h
  wire b p h := by simp [FbClass] at h

theorem allOps_fbClass (f : FbOp) : AllOps (FbClass f) [.fb f, .finish .ok] := .cons (.inl rfl) (.cons (.inr rfl) .nil)

theorem fbFrame_exec {s t : State} {i : Instr} {f : FbOp} (hf : ∀ col pg, f ≠ .read col pg)
    (hl : launch s i = some (s.pstate, [.fb f, .finish .ok])) (h : exec i s = .next t) : FbFrame s t := by
  refine exec_keeps_of_class (P := FbFrame s) (closedClass_fbClass f) ?micro hl (allOps_fbClass f) (fun _ => rfl) rfl h
  case micro =>
    intro v u op rest hu hop hv
    rw [FbFrame] at hv ⊢
    cases hu with
    | fb f' =>
      obtain rfl : f' = f := by simpa [FbClass] using hop
      rw [State.doFb_eq_of_not_read v hf, hv]
      rfl
    | finish code => rw [hv]; rfl
    | _ => simp [FbClass] at hop

theorem readFrame_exec {s t : State} {i : Instr} {col pg : Int}
    (hl : launch s i = some (s.pstate, [.fb (.read col pg), .finish .ok])) (h : exec i s = .next t) : ReadFrame s t := by
  refine exec_keeps_of_class (P := ReadFrame s) (closedClass_fbClass _) ?micro hl (allOps_fbClass _) (fun _ => rfl) rfl h
  case micro =>
    intro v u op rest hu hop hv
    rw [ReadFrame] at hv ⊢
    cases hu with
    | fb f =>
      obtain rfl : f = .read col pg := by simpa [FbClass] using hop
      rw [State.doFb, State.readBody, hv]
      rfl
    | finish code => rw [hv]; rfl
    | _ => simp [FbClass] at hop

/-- Settles O25: the frame-buffer part writes FB, or RESULT for READFB, and Finish the rest. -/
theorem frameBufferFamilyFrame : Obligations.FrameBufferFamilyFrame := by
  intro s t x y w h st
  refine ⟨?writers, readFrame_exec rfl⟩
  case writers =>
    rintro (h | h | h | h | h)
    all_goals exact fbFrame_exec (by simp) rfl h

/-! ### The framer's operations (41_serial_bus.md) -/

/-- The frame of WRCMD and WRDATA. -/
def BurstFrame (s t : State) : Prop :=
  t = { s with trace := t.trace, pins := t.pins, err := t.err, busyOp := t.busyOp, seq := t.seq, host := t.host }

/-- The frame of the two waits. -/
def WaitFrame (s t : State) : Prop :=
  t = { s with trace := t.trace, busyIn := t.busyIn, samples := t.samples, err := t.err, busyOp := t.busyOp, seq := t.seq,
               host := t.host }

/-- The micro-operations of WRCMD and WRDATA. -/
def BurstClass (op : SeqOp) : Prop := op.event.isSome = true ∨ op = .finish .ok

/-- The micro-operations of WAITBUSY and WAITBUSYB. -/
def WaitClass : SeqOp → Prop
  | .poll | .pollBounded _ | .delay _ | .finish _ => True
  | .drive _ _ | .setPState _ | .wire _ _ | .fb _ | .finishIdle => False

theorem closedClass_burstClass : ClosedClass BurstClass where
  bounded n h := by simp [BurstClass, SeqOp.event] at h
  wire b p h := by simp [BurstClass, SeqOp.event] at h

theorem closedClass_waitClass : ClosedClass WaitClass where
  bounded _ _ := ⟨trivial, fun _ => trivial, trivial⟩
  wire _ _ h := h.elim

theorem MicroTo.keeps_burstFrame {s v u : State} {op : SeqOp} {rest : List SeqOp} (hu : MicroTo v rest op u)
    (hop : BurstClass op) (hv : BurstFrame s v) : BurstFrame s u := by
  rw [BurstFrame] at hv ⊢
  cases hu with
  | drive | delay | finish => rw [hv]; rfl
  | _ => simp [BurstClass, SeqOp.event] at hop

theorem MicroTo.keeps_waitFrame {s v u : State} {op : SeqOp} {rest : List SeqOp} (hu : MicroTo v rest op u)
    (hop : WaitClass op) (hv : WaitFrame s v) : WaitFrame s u := by
  rw [WaitFrame] at hv ⊢
  cases hu with
  | drive | setPState | wire | fb | finishIdle => exact hop.elim
  | _ => rw [hv]; rfl

theorem allOps_burstClass_frame (cfg : Params) (k : Kind) (bs : List Byte) :
    AllOps BurstClass (frame cfg k bs ++ [.finish .ok]) :=
  .append (.of_plain (fun _ h => .inl h) (frame_plain cfg k bs)) (.cons (.inr rfl) .nil)

theorem allOps_waitClass_waitBusy (cfg : Params) : AllOps WaitClass (waitBusyOps cfg ++ [.finish .ok]) :=
  .cons (op := .poll) trivial (.cons (op := .delay _) trivial (.cons (op := .finish _) trivial .nil))

theorem allOps_waitClass_pollBounded (n : Nat) : AllOps WaitClass [.pollBounded n] := .cons (op := .pollBounded _) trivial .nil

/-- Settles O37: a burst is drives, a wait is samples and a delay, and each ends with Finish. -/
theorem framerFrame : Obligations.FramerFrame := by
  intro s t b n st
  refine ⟨?bursts, ?waits⟩
  case bursts =>
    rintro (h | h)
    all_goals
      exact exec_keeps_of_class (P := BurstFrame s) closedClass_burstClass MicroTo.keeps_burstFrame rfl
        (allOps_burstClass_frame s.cfg _ _) (fun _ => rfl) rfl h
  case waits =>
    rintro (h | h)
    · exact exec_keeps_of_class (P := WaitFrame s) closedClass_waitClass MicroTo.keeps_waitFrame rfl
        (allOps_waitClass_waitBusy s.cfg) (fun _ => rfl) rfl h
    · exact exec_keeps_of_class (P := WaitFrame s) closedClass_waitClass MicroTo.keeps_waitFrame rfl
        (allOps_waitClass_pollBounded _) (fun _ => rfl) rfl h

/-! ### INIT and UPDATE (42_panel_controller.md) -/

/-- The frame of INIT and UPDATE. -/
def PanelFrame (s t : State) : Prop :=
  t = { s with pstate := t.pstate, trace := t.trace, pins := t.pins, busyIn := t.busyIn, samples := t.samples, err := t.err,
               busyOp := t.busyOp, seq := t.seq, host := t.host }

/-- Every micro-operation but the compositing ones. -/
def SequencerClass : SeqOp → Prop
  | .fb _ => False
  | .drive _ _ | .delay _ | .setPState _ | .poll | .pollBounded _ | .wire _ _ | .finish _ | .finishIdle => True

theorem closedClass_sequencerClass : ClosedClass SequencerClass where
  bounded _ _ := ⟨trivial, fun _ => trivial, trivial⟩
  wire _ _ _ op hop := by
    cases op with
    | fb f => simp [SeqOp.event] at hop
    | _ => trivial

theorem MicroTo.keeps_panelFrame {s v u : State} {op : SeqOp} {rest : List SeqOp} (hu : MicroTo v rest op u)
    (hop : SequencerClass op) (hv : PanelFrame s v) : PanelFrame s u := by
  rw [PanelFrame] at hv ⊢
  cases hu with
  | fb => exact hop.elim
  | wire => rw [hv]
  | _ => rw [hv]; rfl

theorem allOps_sequencerClass_initOps (cfg : Params) : AllOps SequencerClass (initOps cfg) := by
  simp [AllOps, initOps, resetPulse, waitBusyOps, configSeq, SequencerClass]

theorem allOps_sequencerClass_updateOps (cfg : Params) (stream : List Byte) :
    AllOps SequencerClass (updateOps cfg stream) := by
  rw [updateOps, counterPrelude]
  cases cfg.updateSetCounters
  · simp [AllOps, waitBusyOps, SequencerClass]
  · simp [AllOps, waitBusyOps, SequencerClass]

/-- Settles O45: the sequencer runs no compositing operation. -/
theorem sequencerFrame : Obligations.SequencerFrame := by
  intro s t st h
  rcases h with h | h
  · exact exec_keeps_of_class (P := PanelFrame s) (q := .uninit) closedClass_sequencerClass MicroTo.keeps_panelFrame rfl
      (allOps_sequencerClass_initOps s.cfg) (fun _ => rfl) rfl h
  · exact exec_keeps_of_class (P := PanelFrame s) (q := .transmitting) closedClass_sequencerClass MicroTo.keeps_panelFrame rfl
      (allOps_sequencerClass_updateOps s.cfg _) (fun _ => rfl) rfl h

/-! ### PSTATE between operations (42_panel_controller.md R160) -/

/-- Every micro-operation but those that write PSTATE. -/
def KeepsPState : SeqOp → Prop
  | .setPState _ | .finishIdle => False
  | .drive _ _ | .delay _ | .poll | .pollBounded _ | .wire _ _ | .fb _ | .finish _ => True

theorem keepsPState_of_event {op : SeqOp} (h : op.event.isSome = true) : KeepsPState op := by
  cases op with
  | drive | delay => trivial
  | _ => simp [SeqOp.event] at h

theorem closedClass_keepsPState : ClosedClass KeepsPState where
  bounded _ _ := ⟨trivial, fun _ => trivial, trivial⟩
  wire _ _ _ _ hop := keepsPState_of_event hop

theorem MicroTo.pstate_eq {s u : State} {op : SeqOp} {rest : List SeqOp} (hu : MicroTo s rest op u) (hop : KeepsPState op) :
    u.pstate = s.pstate := by
  cases hu with
  | setPState | finishIdle => exact hop.elim
  | fb f => rw [State.doFb_eq]; rfl
  | _ => rfl

/-- INIT and UPDATE are the only operations that write PSTATE. -/
theorem launch_keepsPState {s : State} {i : Instr} {q : PState} {prog : List SeqOp} (hl : launch s i = some (q, prog))
    (hinit : ∀ st, i ≠ .init st) (hupdate : ∀ st, i ≠ .update st) : q = s.pstate ∧ AllOps KeepsPState prog := by
  have hframe : ∀ k bs, AllOps KeepsPState (frame s.cfg k bs ++ [.finish .ok]) := fun k bs =>
    .append (.of_plain (fun _ h => keepsPState_of_event h) (frame_plain _ k bs)) (.cons (op := .finish _) trivial .nil)
  cases i with
  | init st => exact absurd rfl (hinit st)
  | update st => exact absurd rfl (hupdate st)
  | wrCmd | wrData => cases hl; exact ⟨rfl, hframe _ _⟩
  | waitBusy | waitBusyB => cases hl; exact ⟨rfl, by simp [AllOps, waitBusyOps, KeepsPState]⟩
  | clear | clearArea | reverse | reverseArea | plotImage | readFb => cases hl; exact ⟨rfl, by simp [AllOps, KeepsPState]⟩
  | _ => cases hl

theorem pstate_exec_eq {s t : State} {i : Instr} {q : PState} {prog : List SeqOp} (hl : launch s i = some (q, prog))
    (hinit : ∀ st, i ≠ .init st) (hupdate : ∀ st, i ≠ .update st) (h : exec i s = .next t) : t.pstate = s.pstate := by
  obtain ⟨rfl, hprog⟩ := launch_keepsPState hl hinit hupdate
  exact exec_keeps_of_class (P := fun u => u.pstate = s.pstate) closedClass_keepsPState
    (fun hu hop hv => (hu.pstate_eq hop).trans hv) hl hprog (fun _ => rfl) rfl h

theorem State.handleIssue_pstate {s t : State} {d : Desc} {st : List Byte} (h9 : d.toNat % 16 ≠ 0x9)
    (hA : d.toNat % 16 ≠ 0xA) (h : s.handleIssue d st = .next t) : t.pstate = s.pstate := by
  rw [State.handleIssue] at h
  split at h
  · cases h; rfl
  · split at h
    case h_1 i hi =>
      obtain ⟨q, prog, hl⟩ := decodeHost_launch hi s.receiveIssue
      obtain ⟨op, hop, -, rfl⟩ := decode_host_ok hi
      have hcode : d.toNat % 16 = (hostCode op).toNat := by rw [← (hostOpOf_eq_some hop).1, toNat_fieldOp]
      rw [hcode] at h9 hA
      refine pstate_exec_eq (s := s.receiveIssue) hl (fun st' => ?_) (fun st' => ?_) h
      · cases op with
        | init => exact absurd rfl h9
        | _ => simp [assembleHost]
      · cases op with
        | update => exact absurd rfl hA
        | _ => simp [assembleHost]
    case h_2 => cases h; rfl

/-- Settles O46: of what lands, only the issues of INIT and UPDATE start an operation that writes PSTATE. -/
theorem onlyInitUpdateResetWritePState : Obligations.OnlyInitUpdateResetWritePState := by
  intro s t g inp r hidle hhost hreset hop hstep
  rw [step_of_lands ⟨g, hhost, .inr hidle⟩] at hstep
  cases inp with
  | issue d st =>
    obtain ⟨h9, hA⟩ := hop d st rfl
    exact State.handleIssue_pstate (s := { s with host := r }) h9 hA hstep
  | readStatus | readResult => cases hstep; rfl
  | blockReset => exact absurd rfl hreset

/-! ### The wire commands (43_wire_commands.md R208) -/

/-- The frame of a wire command that is no part of an operation. -/
def WireFrame (s t : State) : Prop := t = { s with trace := t.trace, pins := t.pins, seq := t.seq, host := t.host }

/-- The micro-operations of a wire command's frames. -/
def EventClass (op : SeqOp) : Prop := op.event.isSome = true

theorem closedClass_eventClass : ClosedClass EventClass where
  bounded _ h := absurd h Bool.false_ne_true
  wire _ _ h := absurd h Bool.false_ne_true

theorem MicroTo.keeps_wireFrame {s v u : State} {op : SeqOp} {rest : List SeqOp} (hu : MicroTo v rest op u)
    (hop : EventClass op) (hv : WireFrame s v) : WireFrame s u := by
  rw [WireFrame] at hv ⊢
  cases hu with
  | drive | delay => rw [hv]; rfl
  | _ => simp [EventClass, SeqOp.event] at hop

/-- Settles O48: a wire command where nothing else is under way is drives alone, and STATUS holds none of what they write. -/
theorem wireCommandsChangeOnlyPins : Obligations.WireCommandsChangeOnlyPins := by
  intro s t i b op p hidle hi h
  rw [exec_wire hi, show s.seq = [] from hidle, List.append_nil, Host.Outcome.next.injEq] at h
  have hframe : WireFrame s t := by
    rw [← h]
    exact State.advance_keeps_of_class (P := WireFrame s) closedClass_eventClass MicroTo.keeps_wireFrame
      (wireOps_plain s.cfg op p) rfl
  refine ⟨hframe, ?_⟩
  rw [hframe]
  rfl

end Sys2Proof.Machine

/-! The encoding (30_encoding.md R71 to R82): a descriptor is its seven fields, and the zero bits of a format are the fields that
its operations leave at 0; so the decoder and the encoder are inverse to each other, and the decoder accepts the table's rows. -/

namespace Sys2Proof.Machine

open Sys2Proof.Safety

/-! ### A descriptor is its fields (30_encoding.md R71) -/

theorem desc_eq_fields (d : Desc) :
    d = d.extractLsb' 56 8 ++ fieldH d ++ fieldW d ++ fieldB d ++ fieldA d ++ d.extractLsb' 4 4 ++ fieldOp d := by
  rw [fieldH, fieldW, fieldB, fieldA, fieldOp]
  iterate 6 rw [BitVec.extractLsb'_append_extractLsb'_eq_extractLsb' (by rfl)]
  exact BitVec.extractLsb'_eq_self.symm

theorem desc_eq_iff {d e : Desc} :
    d = e ↔ fieldOp d = fieldOp e ∧ d.extractLsb' 4 4 = e.extractLsb' 4 4 ∧ d.extractLsb' 56 8 = e.extractLsb' 56 8 ∧
      fieldA d = fieldA e ∧ fieldB d = fieldB e ∧ fieldW d = fieldW e ∧ fieldH d = fieldH e := by
  constructor
  · rintro rfl
    exact ⟨rfl, rfl, rfl, rfl, rfl, rfl, rfl⟩
  · rintro ⟨hop, h0, h1, ha, hb, hw, hh⟩
    rw [desc_eq_fields d, desc_eq_fields e, hop, h0, h1, ha, hb, hw, hh]

section
variable (op : HostOp) (a b : Half) (w h : Byte)

@[simp] theorem fieldA_mkDesc : fieldA (mkDesc op a b w h) = a := by
  rw [fieldA, mkDesc, BitVec.extractLsb'_append_eq_of_le (by decide), BitVec.extractLsb'_append_eq_of_le (by decide)]
  exact BitVec.extractLsb'_append_eq_right

@[simp] theorem fieldB_mkDesc : fieldB (mkDesc op a b w h) = b := by
  rw [fieldB, mkDesc]
  iterate 3 rw [BitVec.extractLsb'_append_eq_of_le (by decide)]
  exact BitVec.extractLsb'_append_eq_right

@[simp] theorem fieldW_mkDesc : fieldW (mkDesc op a b w h) = w := by
  rw [fieldW, mkDesc]
  iterate 4 rw [BitVec.extractLsb'_append_eq_of_le (by decide)]
  exact BitVec.extractLsb'_append_eq_right

@[simp] theorem fieldH_mkDesc : fieldH (mkDesc op a b w h) = h := by
  rw [fieldH, mkDesc]
  iterate 5 rw [BitVec.extractLsb'_append_eq_of_le (by decide)]
  exact BitVec.extractLsb'_append_eq_right

variable {op a b w h}

theorem mkDesc_eq_iff {d : Desc} :
    mkDesc op a b w h = d ↔ fieldOp d = hostCode op ∧ d.extractLsb' 4 4 = 0#4 ∧ d.extractLsb' 56 8 = 0#8 ∧
      fieldA d = a ∧ fieldB d = b ∧ fieldW d = w ∧ fieldH d = h := by
  rw [eq_comm, desc_eq_iff, Laws.fieldOp_mkDesc, Laws.rsv0_mkDesc, Laws.rsv1_mkDesc, fieldA_mkDesc, fieldB_mkDesc,
    fieldW_mkDesc, fieldH_mkDesc]

end

theorem fieldByte_eq_setWidth_fieldA (d : Desc) : fieldByte d = (fieldA d).setWidth 8 := by
  rw [fieldByte, fieldA, BitVec.setWidth_extractLsb'_of_le (by decide)]

/-! ### The zero bits of a format (30_encoding.md R73, R77) -/

/-- A 16-bit value is an extended byte when its upper byte is 0. -/
theorem setWidth_setWidth_eq_iff (a : Half) : a = (a.setWidth 8).setWidth 16 ↔ a &&& 0xFF00#16 = 0#16 := by
  have hsplit : a = a.extractLsb' 8 8 ++ a.setWidth 8 := by
    rw [BitVec.setWidth_eq_extractLsb' (by decide), BitVec.extractLsb'_append_extractLsb'_eq_extractLsb' (by rfl)]
    exact BitVec.extractLsb'_eq_self.symm
  have hupper : a &&& 0xFF00#16 = a.extractLsb' 8 8 ++ 0#8 := by
    calc a &&& 0xFF00#16 = (a.extractLsb' 8 8 ++ a.setWidth 8) &&& (BitVec.allOnes 8 ++ 0#8) :=
          congrArg (· &&& 0xFF00#16) hsplit
      _ = a.extractLsb' 8 8 ++ 0#8 := by rw [BitVec.and_append, BitVec.and_zero, BitVec.and_allOnes]
  have hlower : (a.setWidth 8).setWidth 16 = 0#8 ++ a.setWidth 8 := BitVec.setWidth_eq_append (by decide)
  calc a = (a.setWidth 8).setWidth 16 ↔ a.extractLsb' 8 8 ++ a.setWidth 8 = 0#8 ++ a.setWidth 8 := by rw [← hsplit, hlower]
    _ ↔ a.extractLsb' 8 8 = 0#8 := BitVec.append_left_inj _
    _ ↔ a.extractLsb' 8 8 ++ 0#8 = 0#8 ++ 0#8 := (BitVec.append_left_inj _).symm
    _ ↔ a &&& 0xFF00#16 = 0#16 := by rw [hupper]; rfl

/-- The operand fields that an operation of the format does not use are 0. -/
def UnusedFieldsZero (d : Desc) : Format → Prop
  | .f0 => fieldA d = 0#16 ∧ fieldB d = 0#16 ∧ fieldW d = 0#8 ∧ fieldH d = 0#8
  | .fA => True
  | .fC => fieldA d &&& 0xFF00#16 = 0#16 ∧ fieldB d = 0#16 ∧ fieldW d = 0#8 ∧ fieldH d = 0#8
  | .fN | .fL => fieldB d = 0#16 ∧ fieldW d = 0#8 ∧ fieldH d = 0#8
  | .fR => fieldW d = 0#8 ∧ fieldH d = 0#8

theorem and_zeroBits_eq_zero_iff {d : Desc} {f : Format} :
    d &&& zeroBits f = 0#64 ↔ d.extractLsb' 4 4 = 0#4 ∧ d.extractLsb' 56 8 = 0#8 ∧ UnusedFieldsZero d f := by
  have hnibble : ∀ v : BitVec 4, v &&& 15#4 = v := fun _ => BitVec.and_allOnes
  have hbyte : ∀ v : Byte, v &&& 255#8 = v := fun _ => BitVec.and_allOnes
  have hhalf : ∀ v : Half, v &&& 65535#16 = v := fun _ => BitVec.and_allOnes
  rw [desc_eq_iff]
  cases f <;>
    simp [UnusedFieldsZero, zeroBits, formatMask, fieldOp, fieldA, fieldB, fieldW, fieldH, BitVec.extractLsb'_and, hnibble,
      hbyte, hhalf]

/-- A descriptor is the encoding of its own operation and operands exactly when it has the operation's OP value and its zero
bits are 0: the operands are the fields, and every other bit is a zero bit. -/
theorem encode_assembleHost_eq_iff {op : HostOp} {d : Desc} {st : List Byte} :
    encode (assembleHost op d st) = .host d st ↔ fieldOp d = hostCode op ∧ d &&& zeroBits (hostFormat op) = 0#64 := by
  rw [and_zeroBits_eq_zero_iff]
  cases op <;>
    simp [assembleHost, encode, mkDesc_eq_iff, UnusedFieldsZero, hostFormat, fieldByte_eq_setWidth_fieldA,
      setWidth_setWidth_eq_iff]

/-! ### The decoder and the encoder -/

theorem hostOpOf_hostCode {b : Bool} {op : HostOp} (hb : op = .waitBusyB → b = true) :
    hostOpOf b (hostCode op) = some op := by
  revert hb
  cases b <;> cases op <;> decide

theorem decode_host_eq_ok_iff {b : Bool} {d : Desc} {st : List Byte} {i : Instr} :
    decode b (.host d st) = .ok i ↔
      ∃ op, (op = .waitBusyB → b = true) ∧ assembleHost op d st = i ∧ encode i = .host d st := by
  constructor
  · intro h
    obtain ⟨op, hop, hz, rfl⟩ := decode_host_ok h
    obtain ⟨hcode, hb⟩ := hostOpOf_eq_some hop
    exact ⟨op, hb, rfl, encode_assembleHost_eq_iff.2 ⟨hcode, hz⟩⟩
  · rintro ⟨op, hb, rfl, henc⟩
    obtain ⟨hcode, hz⟩ := encode_assembleHost_eq_iff.1 henc
    simp only [decode, decodeHost, hcode, hostOpOf_hostCode hb, if_pos hz]

theorem decode_encode_host {op : HostOp} {d : Desc} {st : List Byte} {i : Instr} (henc : encode i = .host d st)
    (hasm : assembleHost op d st = i) : decode true (encode i) = .ok i := by
  rw [henc]
  exact decode_host_eq_ok_iff.2 ⟨op, fun _ => rfl, hasm, henc⟩

/-- Settles O2: the fields of a descriptor are the operands it is made from, and the command bytes tell the wire commands apart,
0x01 with the payload's length. -/
theorem decodeInvertsEncode : Obligations.DecodeInvertsEncode := by
  intro i hwf
  cases i with
  | clear st => exact decode_encode_host (op := .clear) rfl rfl
  | clearArea x y w h st => exact decode_encode_host (op := .clearArea) rfl (by simp [assembleHost])
  | reverse st => exact decode_encode_host (op := .reverse) rfl rfl
  | reverseArea x y w h st => exact decode_encode_host (op := .reverseArea) rfl (by simp [assembleHost])
  | plotImage x y w h st => exact decode_encode_host (op := .plotImage) rfl (by simp [assembleHost])
  | wrCmd b st => exact decode_encode_host (op := .wrCmd) rfl (by simp [assembleHost, fieldByte_eq_setWidth_fieldA])
  | wrData n st => exact decode_encode_host (op := .wrData) rfl (by simp [assembleHost])
  | waitBusy st => exact decode_encode_host (op := .waitBusy) rfl rfl
  | init st => exact decode_encode_host (op := .init) rfl rfl
  | update st => exact decode_encode_host (op := .update) rfl rfl
  | readFb col pg st => exact decode_encode_host (op := .readFb) rfl (by simp [assembleHost])
  | waitBusyB limit st => exact decode_encode_host (op := .waitBusyB) rfl (by simp [assembleHost])
  | drvOut p =>
    have hlen : p.length = 3 := by simpa [Instr.wf] using hwf
    exact if_neg (by omega)
  | cursorLengthAlt01 p =>
    have hlen : p.length = 1 := by simpa [Instr.wf] using hwf
    exact if_pos hlen
  | _ => rfl

theorem encode_of_decodeWire {op : Byte} {p : List Byte} {i : Instr} (h : decodeWire op p = .ok i) :
    encode i = .wire op p := by
  have hop : ∀ n, op.toNat = n → op = BitVec.ofNat 8 n := fun n hn => by rw [← hn, BitVec.ofNat_toNat, BitVec.setWidth_eq]
  rw [decodeWire] at h
  split at h
  case h_2 heq =>
    rw [hop _ heq]
    split at h <;> cases h <;> rfl
  case h_17 => cases h
  all_goals
    rename_i heq
    rw [hop _ heq]
    cases h
    rfl

/-- Settles O3: for a descriptor the accepted ones are the encodings, for a wire command the byte is the row's. -/
theorem encodeInvertsDecode : Obligations.EncodeInvertsDecode := by
  intro b im i h
  cases im with
  | host d st =>
    obtain ⟨op, -, -, henc⟩ := decode_host_eq_ok_iff.1 h
    exact henc
  | wire op p => exact encode_of_decodeWire h

/-! ### The host rows of opcode_table.json -/

/-- The row of an operation: its OP value and the mask of its format. -/
def hostRow (op : HostOp) : Desc × Desc := ((hostCode op).setWidth 64, formatMask (hostFormat op))

theorem mem_hostRows_iff {row : Desc × Desc} : row ∈ hostRows ↔ ∃ op, hostRow op = row := by
  constructor
  · intro h
    fin_cases h
    exacts [⟨.clear, rfl⟩, ⟨.clearArea, rfl⟩, ⟨.reverse, rfl⟩, ⟨.reverseArea, rfl⟩, ⟨.plotImage, rfl⟩, ⟨.wrCmd, rfl⟩,
      ⟨.wrData, rfl⟩, ⟨.waitBusy, rfl⟩, ⟨.init, rfl⟩, ⟨.update, rfl⟩, ⟨.readFb, rfl⟩, ⟨.waitBusyB, rfl⟩]
  · rintro ⟨op, rfl⟩
    cases op <;> decide

/-- A descriptor matches an operation's row when it has its OP value and its zero bits are 0. -/
theorem and_formatMask_eq_iff {d : Desc} {op : HostOp} :
    d &&& formatMask (hostFormat op) = (hostCode op).setWidth 64 ↔
      fieldOp d = hostCode op ∧ d &&& zeroBits (hostFormat op) = 0#64 := by
  have hnibble : ∀ v : BitVec 4, v &&& 15#4 = v := fun _ => BitVec.and_allOnes
  rw [desc_eq_iff, desc_eq_iff (d := d &&& zeroBits (hostFormat op))]
  cases op <;>
    simp [hostCode, hostFormat, zeroBits, formatMask, fieldOp, fieldA, fieldB, fieldW, fieldH, BitVec.extractLsb'_and, hnibble]

/-- Settles O4: matching a row and being an operation's encoding are both its OP value with the zero bits 0. -/
theorem hostTableRowsDecide : Obligations.HostTableRowsDecide := by
  intro d st
  simp only [decode_host_eq_ok_iff, mem_hostRows_iff]
  constructor
  · rintro ⟨-, op, -, rfl, henc⟩
    exact ⟨_, ⟨op, rfl⟩, and_formatMask_eq_iff.2 (encode_assembleHost_eq_iff.1 henc)⟩
  · rintro ⟨-, ⟨op, rfl⟩, hrow⟩
    exact ⟨_, op, fun _ => trivial, rfl, encode_assembleHost_eq_iff.2 (and_formatMask_eq_iff.1 hrow)⟩

/-- Settles O1: each word is decoded. -/
theorem specWordsDecode : Obligations.SpecWordsDecode := by
  unfold Obligations.SpecWordsDecode
  decide

end Sys2Proof.Machine

/-! The host port (30_encoding.md R70, R77): what a step does with an issue, a read, or nothing at all. -/

namespace Sys2Proof.Machine

open Sys2Proof.Safety

/-! ### Steps at which no issue is rejected -/

/-- Settles O5: the issue lands, and its handling is the receipt and the decoded instruction. -/
theorem stepRunsIssuedOperation : Obligations.StepRunsIssuedOperation := by
  intro s g d st r i hidle hbusy hhost hi
  rw [step_of_lands ⟨g, hhost, .inr hidle⟩, State.handleInput, State.handleIssue_of_decode (by exact hbusy) (by exact hi),
    State.receiveIssue]

theorem State.takeInput_of_not_due {s : State} (hseq : s.seq ≠ []) (hdue : s.inputDue = false) : s.takeInput = none := by
  rw [State.inputDue] at hdue
  rw [State.takeInput]
  split at hdue
  case h_1 => rfl
  case h_2 a r _ =>
    have hnow : (s.seq.isEmpty || a.gap == 0) = false := by simpa [hdue] using hseq
    simp only [hnow, Bool.false_eq_true, if_false]

theorem step_of_not_due {s : State} (hseq : s.seq ≠ []) (hdue : s.inputDue = false) : step s = s.resume := by
  rw [step, State.takeInput_of_not_due hseq hdue]

/-- Settles O6: nothing lands, so the sequence goes on with the wire command it stands at. -/
theorem stepRunsSequencedWireCommand : Obligations.StepRunsSequencedWireCommand := by
  intro s op p rest i hseq hdue hi
  rw [step_of_not_due (by simp [hseq]) hdue, State.resume, hseq]
  simp only [hi]

/-- Settles O7: nothing lands, and there is nothing to carry on. -/
theorem idleStepWaits : Obligations.IdleStepWaits := by
  intro s hidle hq
  have hseq : s.seq = [] := hidle
  rw [step, State.takeInput, show s.host = [] from hq]
  dsimp only
  rw [State.resume, hseq]
  exact congrArg _ (State.advanceFor_idle _ hseq)

/-! ### STATUS and RESULT (10_state.md R27) -/

/-- The value of a bit field above another. -/
theorem toNat_append_eq_add {m n : Nat} (v : BitVec m) (w : BitVec n) : (v ++ w).toNat = v.toNat * 2 ^ n + w.toNat := by
  rw [BitVec.toNat_append, ← Nat.shiftLeft_add_eq_or_of_lt w.isLt, Nat.shiftLeft_eq]

theorem State.status_toNat (s : State) :
    s.status.toNat = 32 * (pstateCode s.pstate).toNat + 16 * s.ovr.toNat + 8 * s.busyOp.toNat + (errCode s.err).toNat := by
  simp only [State.status, toNat_append_eq_add, BitVec.toNat_ofBool]
  omega

/-- Settles O13: a read that lands records the register, and STATUS is the sum of its fields. -/
theorem readsReturnRegisters : Obligations.ReadsReturnRegisters := by
  intro s r
  refine ⟨fun h => ?status, fun h => ?result, ?value⟩
  case status => rw [step_of_lands h, State.handleInput]; rfl
  case result => rw [step_of_lands h, State.handleInput]; rfl
  case value =>
    rw [State.status_toNat]
    cases s.pstate <;> cases s.err <;> rfl

/-! ### The arguments of an issue (30_encoding.md R77) -/

theorem argsOk_eq_false_of_stream {i : Instr} (h : (operandStream i).length ≠ streamLength i) : ¬argsOk i = true := by
  simp [argsOk, h]

theorem argsOk_waitBusyB_iff {n : Half} {st : List Byte} : argsOk (.waitBusyB n st) = true ↔ n.toNat ≠ 0 ∧ st = [] := by
  simp [argsOk, countOk, operandStream, streamLength, zext]

/-- Settles O10: each operation looks at its arguments first, WAITBUSYB at HAS_BOUNDED_WAIT before them. -/
theorem badArgumentsAnswerAtOnce : Obligations.BadArgumentsAnswerAtOnce := by
  intro s x y n w h b st
  refine ⟨fun hst => ?noStream, fun hlen => ?plot, fun hbad => ?wrData, fun hb hbad => ?waitBusyB, fun hb => ?absent⟩
  case noStream =>
    have hlen : st.length ≠ 0 := mt List.length_eq_zero_iff.1 hst
    have hrej : ∀ i prog, operandStream i = st → streamLength i = 0 → s.issue i prog = s.raise .earg := by
      rintro i prog rfl hzero
      exact State.issue_of_not_argsOk (argsOk_eq_false_of_stream (by omega)) prog
    have hargs : ∀ i, operandStream i = st → streamLength i = 0 → ¬argsOk i = true := by
      rintro i rfl hzero
      exact argsOk_eq_false_of_stream (by omega)
    exact ⟨congrArg _ (hrej _ _ rfl rfl), congrArg _ (hrej _ _ rfl rfl), congrArg _ (hrej _ _ rfl rfl),
      congrArg _ (hrej _ _ rfl rfl), congrArg _ (hrej _ _ rfl rfl), congrArg _ (hrej _ _ rfl rfl),
      congrArg _ (if_neg (hargs (.init st) rfl rfl)), congrArg _ (if_neg (hargs (.update st) rfl rfl)),
      congrArg _ (hrej _ _ rfl rfl)⟩
  case plot => exact congrArg _ (State.issue_of_not_argsOk (mt argsOk_plotImage_iff.1 hlen) _)
  case wrData =>
    refine congrArg _ (State.issue_of_not_argsOk (fun hargs => ?_) _)
    obtain ⟨hn, hlen⟩ := argsOk_wrData_iff.1 hargs
    exact hbad.elim hn fun h => h hlen
  case waitBusyB =>
    refine congrArg _ ((if_pos hb).trans (State.issue_of_not_argsOk (fun hargs => ?_) _))
    obtain ⟨hn, hst⟩ := argsOk_waitBusyB_iff.1 hargs
    exact hbad.elim hn fun h => h hst
  case absent => exact congrArg _ (if_neg (by rw [hb]; exact Bool.false_ne_true))

/-! ### An accepted issue -/

theorem exec_of_issue {s : State} {i : Instr} {prog : List SeqOp} (hexec : exec i s = .next (s.issue i prog))
    (hargs : argsOk i = true) : exec i s = .next (s.accept prog).advance := by
  rw [hexec, State.issue_of_argsOk hargs]

/-- Past the checks of R77 the operation is accepted and runs. -/
theorem exec_assembleHost_of_accepted {s : State} {op : HostOp} {d : Desc} {st : List Byte} {q : PState} {prog : List SeqOp}
    (hb : op = .waitBusyB → s.cfg.hasBoundedWait = true) (h : instrRejection s.pstate (assembleHost op d st) = none)
    (hl : launch s (assembleHost op d st) = some (q, prog)) :
    exec (assembleHost op d st) s = .next ({ s with pstate := q }.accept prog).advance := by
  have hargs : argsOk (assembleHost op d st) = true := by
    by_contra hno
    simp [instrRejection, hno] at h
  cases op with
  | waitBusyB =>
    cases hl
    exact congrArg _ ((if_pos (hb rfl)).trans (State.issue_of_argsOk hargs _))
  | init =>
    rw [assembleHost] at hl hargs ⊢
    rw [exec, execInit, if_pos hargs]
    cases hl
    rfl
  | update =>
    rw [assembleHost] at hl hargs h ⊢
    obtain rfl : st = [] := by simpa [argsOk, countOk, operandStream, streamLength] using hargs
    have hidle : s.pstate = .idle := by simpa [instrRejection, argsOk_update] using h
    rw [exec, execUpdate, if_pos hargs, if_pos hidle]
    cases hl
    rfl
  | clear | clearArea | reverse | reverseArea | plotImage | wrCmd | wrData | waitBusy | readFb =>
    rw [assembleHost] at hl hargs ⊢
    refine (exec_of_issue rfl hargs).trans ?_
    cases hl
    rfl

theorem launch_ne_nil {s : State} {i : Instr} {q : PState} {prog : List SeqOp} (hl : launch s i = some (q, prog)) :
    prog ≠ [] := by
  cases i with
  | init => cases hl; simp [initOps]
  | update => cases hl; simp [updateOps]
  | wrCmd | wrData | waitBusy => cases hl; simp
  | clear | clearArea | reverse | reverseArea | plotImage | readFb | waitBusyB => cases hl; exact List.cons_ne_nil _ _
  | _ => cases hl

/-- The PSTATE in which an accepted operation starts (42_panel_controller.md R160). -/
theorem launch_pstate {s : State} {op : HostOp} {d : Desc} {st : List Byte} {q : PState} {prog : List SeqOp}
    (hcode : d.toNat % 16 = (hostCode op).toNat) (hl : launch s (assembleHost op d st) = some (q, prog)) :
    q = if d.toNat % 16 = 0x9 then .uninit else if d.toNat % 16 = 0xA then .transmitting else s.pstate := by
  rw [hcode]
  cases op <;> cases hl <;> rfl

/-- Settles O9: the accepted operation is put in place, and the input that is due stops the step there. -/
theorem acceptedIssueSetsBusyop : Obligations.AcceptedIssueSetsBusyop := by
  intro s g d st inp r hidle hbusy hhost hrej
  have hok : ∃ i, decode s.cfg.hasBoundedWait (.host d st) = .ok i := by
    cases hdec : decode s.cfg.hasBoundedWait (.host d st) with
    | ok i => exact ⟨i, rfl⟩
    | error x => rw [rejection_of_decode_error hdec] at hrej; cases hrej
  obtain ⟨i, hdec⟩ := hok
  rw [rejection_of_decode_ok hdec] at hrej
  obtain ⟨op, hop, -, rfl⟩ := decode_host_ok hdec
  obtain ⟨hcode, hb⟩ := hostOpOf_eq_some hop
  have hstep := stepRunsIssuedOperation s g d st _ _ hidle hbusy hhost hdec
  generalize hs' : ({ s with host := { gap := 0, input := inp } :: r, ovr := false } : State) = s' at hstep
  obtain ⟨q, prog, hl⟩ := decodeHost_launch hdec s'
  have hacc := exec_assembleHost_of_accepted (s := s') (by rw [← hs']; exact hb) (by rw [← hs']; exact hrej) hl
  have hq := launch_pstate (by rw [← hcode, toNat_fieldOp]) hl
  rw [State.advance_due (by rw [← hs']; rfl)] at hacc
  refine ⟨_, hstep.trans hacc, launch_ne_nil hl, ?_⟩
  rw [hq, ← hs']
  rfl

end Sys2Proof.Machine

/-! The compositing operations complete (40_framebuffer.md R100 to R108): what each leaves in the cells and pixels, with nothing
else changed. -/

namespace Sys2Proof.Machine

open Sys2Proof.Safety

/-! ### The addresser and the page/shift split (20_memory.md R53 to R56) -/

/-- Settles O21: device row 127 − Y is 8·page + bit position, so the pixel of a bit is read off. -/
theorem addresserIsBijective : Obligations.AddresserIsBijective := by
  have hpage : ∀ Y : Int, pageOf Y = (127 - Y) / 8 := fun Y => Int.fdiv_eq_ediv_of_nonneg _ (by decide)
  have hbit : ∀ Y : Int, bitPosOf Y = ((127 - Y) % 8).toNat := fun Y => by
    rw [bitPosOf, devRow, Int.fmod_eq_emod_of_nonneg _ (by decide)]
  refine ⟨fun X Y hin => ?range, fun p c b hp hb X Y => ⟨?unique, ?ofRow⟩⟩
  case range =>
    simp only [inPix, Bool.and_eq_true, decide_eq_true_eq] at hin
    rw [inFB_iff, hpage, hbit]
    omega
  case unique =>
    rintro ⟨-, hpg, hc, hbp⟩
    rw [hpage] at hpg
    rw [hbit] at hbp
    omega
  case ofRow =>
    rintro ⟨rfl, rfl⟩
    exact ⟨inPix_logicalRow hp hb, pageOf_logicalRow p hb, rfl, bitPosOf_logicalRow p hb⟩

theorem splitDeviceY_of_nonneg {d : Int} (hd : 0 ≤ d) : splitDeviceY d = (d.fdiv 8, d.fmod 8) := by
  simp only [splitDeviceY, if_neg (not_lt.2 hd), Int.tdiv_eq_ediv_of_nonneg hd, Int.tmod_eq_emod_of_nonneg hd,
    Int.fdiv_eq_ediv_of_nonneg d (by decide : (0 : Int) ≤ 8), Int.fmod_eq_emod_of_nonneg d (by decide : (0 : Int) ≤ 8)]

/-- Truncating division of a negative deviceY, from the division of its opposite. -/
theorem splitDeviceY_of_neg {d : Int} (hd : d < 0) : splitDeviceY d = (-(-d / 8) - 1, 8 - -d % 8) := by
  have hdiv : d.tdiv 8 = -(-d / 8) := by
    rw [← Int.tdiv_eq_ediv_of_nonneg (by omega), Int.neg_tdiv, neg_neg]
  have hmod : d.tmod 8 = -(-d % 8) := by
    rw [← Int.tmod_eq_emod_of_nonneg (by omega), Int.neg_tmod, neg_neg]
  simp only [splitDeviceY, if_pos hd, hdiv, hmod, Prod.mk.injEq, true_and]
  omega

/-- Settles O22: the sign correction lowers the page by one, which is floor division except at the multiples of 8. -/
theorem pageShiftSplit : Obligations.PageShiftSplit := by
  have hfdiv : ∀ d : Int, d.fdiv 8 = d / 8 := fun d => Int.fdiv_eq_ediv_of_nonneg d (by decide)
  have hfmod : ∀ d : Int, d.fmod 8 = d % 8 := fun d => Int.fmod_eq_emod_of_nonneg d (by decide)
  refine ⟨fun d hd => splitDeviceY_of_nonneg hd, fun d hd hm => ?noMultiple, fun d hd hm => ?multiple, by decide, by decide,
    by decide, by decide, by decide, by decide⟩
  case noMultiple =>
    rw [hfmod] at hm
    simp only [splitDeviceY_of_neg hd, hfdiv, hfmod, Prod.mk.injEq]
    omega
  case multiple =>
    rw [hfmod] at hm
    simp only [splitDeviceY_of_neg hd, hfdiv, Prod.mk.injEq]
    omega

/-! ### Completion -/

theorem done_doFb_eq (s : State) {f : FbOp} (hf : ∀ col pg, f ≠ .read col pg) (code : Err) :
    done (s.doFb f) code = { done s code with fb := (done (s.doFb f) code).fb } := by
  rw [State.doFb_eq_of_not_read s hf]
  rfl

/-- Settles O14: CLEAR writes 0x00 to every cell of the window. -/
theorem clearCompletes : Obligations.ClearCompletes := by
  intro s hq
  refine ⟨_, exec_clear_of_quiet hq, fun p c hp => ?_, done_doFb_eq s (by simp) .ok⟩
  rw [done_fbByte, fbByte_doFb_clear s hp]

/-- Settles O15: REVERSE writes every cell of the window once. -/
theorem reverseCompletes : Obligations.ReverseCompletes := by
  intro s hq
  refine ⟨_, exec_reverse_of_quiet hq, fun p c hp => ?_, done_doFb_eq s (by simp) .ok⟩
  rw [done_fbByte, fbByte_doFb_reverse s hp]

/-- Settles O16: the loops visit each in-window pixel of the rectangle, and clearing one touches no other bit. -/
theorem clearAreaCompletes : Obligations.ClearAreaCompletes := fun s x y w h hq =>
  ⟨_, exec_clearArea_of_quiet hq x y w h, fun _ _ hin => pixel_doFb_clearArea s _ _ _ _ hin, done_doFb_eq s (by simp) .ok⟩

/-- Settles O17: the loops visit each in-window pixel of the rectangle once. -/
theorem reverseAreaCompletes : Obligations.ReverseAreaCompletes := fun s x y w h hq =>
  ⟨_, exec_reverseArea_of_quiet hq x y w h, fun _ _ hin => pixel_doFb_reverseArea s _ _ _ _ hin,
    done_doFb_eq s (by simp) .ok⟩

/-- Settles O20: RESULT takes the cell's byte inside the window (20_memory.md R52) and 0x00 outside it. -/
theorem readFbCompletes : Obligations.ReadFbCompletes := by
  intro s col pg hq
  rw [exec, execReadFb, State.issue_fb hq rfl, State.doFb, State.readBody, sext16, sext16]
  simp only [inFB_iff]
  rfl

/-! ### PLOTIMAGE (40_framebuffer.md R104) -/

/-- Where the strips put a set bit k of a strip byte, as a device row: strip j begins at device row deviceY − 8j. -/
theorem stripRow_iff {D p j : Int} {b k : Nat} (hp : 0 ≤ p) (hb : b < 8) (hk : k < 8) (hj : 0 ≤ j) :
    ((p = (splitDeviceY D).1 - j ∧ (k : Int) + (splitDeviceY D).2 = b) ∨
        (p = (splitDeviceY D).1 - j - 1 ∧ (k : Int) = b + (8 - (splitDeviceY D).2))) ↔
      ((k + D.fmod 8 ≤ 7 ∧ 8 * p + b = D - 8 * j + k) ∨ (8 ≤ k + D.fmod 8 ∧ 8 * p + b = D - 8 * j - 16 + k)) := by
  rw [Int.fmod_eq_emod_of_nonneg D (by decide)]
  rcases lt_or_ge D 0 with hD | hD
  · rw [splitDeviceY_of_neg hD]
    dsimp only
    omega
  · rw [splitDeviceY_of_nonneg hD, Int.fdiv_eq_ediv_of_nonneg D (by decide), Int.fmod_eq_emod_of_nonneg D (by decide)]
    dsimp only
    omega

theorem splitDeviceY_shift_mem (D : Int) : 0 ≤ (splitDeviceY D).2 ∧ (splitDeviceY D).2 ≤ 8 := by
  rcases lt_or_ge D 0 with hD | hD
  · rw [splitDeviceY_of_neg hD]
    dsimp only
    omega
  · rw [splitDeviceY_of_nonneg hD, Int.fmod_eq_emod_of_nonneg D (by decide)]
    dsimp only
    omega

/-- What PLOTIMAGE does to a bit of the window: the clear of the rectangle, then every strip byte. -/
theorem getLsbD_fbByte_doFb_plot (s : State) (x y : Int) (w h : Nat) (bitmap : List Byte) {p c : Int} {b : Nat}
    (hp : inFB p c = true) (hb : b < 8) :
    ((s.doFb (.plot x y w h bitmap)).fbByte p c).getLsbD b = true ↔
      ((s.fbByte p c).getLsbD b = true ∧ inRect x y w h c (127 - (8 * p + b)) = false) ∨
      ∃ j i k : Nat, j < (h + 7) / 8 ∧ i < w ∧ k < 8 ∧ x + i = c ∧ (bitmap.getD (j * w + i) 0#8).getLsbD k = true ∧
        ((k + (deviceYOf y h).fmod 8 ≤ 7 ∧ 8 * p + b = deviceYOf y h - 8 * j + k) ∨
          (8 ≤ k + (deviceYOf y h).fmod 8 ∧ 8 * p + b = deviceYOf y h - 8 * j - 16 + k)) := by
  have hp0 : 0 ≤ p := (inFB_iff.1 hp).1
  have hindex : ∀ j i : Nat, ((j : Int) * w + i).toNat = j * w + i := fun j i => by
    exact_mod_cast Int.toNat_natCast (j * w + i)
  have hstrip := fun (u : State) (j i : Int) =>
    State.orStripByte_bit u (page := (splitDeviceY (deviceYOf y h)).1) j (x + i) (bitmap.getD (j * w + i).toNat 0#8)
      (splitDeviceY_shift_mem (deviceYOf y h)) hp hb
  rw [State.doFb, State.plotBody]
  dsimp only
  rw [forRange_sets (fun j u => forRange_sets (fun i u => hstrip u j i) w 0 u) (stripCount h) 0]
  have hclear := getLsbD_fbByte_doFb_clearArea s x y w h hp hb
  rw [State.doFb] at hclear
  rw [hclear, Bool.and_eq_true, Bool.not_eq_true', stripCount]
  simp only [zero_add, hindex]
  refine or_congr Iff.rfl ⟨?_, ?_⟩
  · rintro ⟨j, hj, i, hi, hc, k, hk, hbit, hrow⟩
    exact ⟨j, i, k, hj, hi, hk, hc.symm, hbit, (stripRow_iff hp0 hb hk j.cast_nonneg).1 hrow⟩
  · rintro ⟨j, i, k, hj, hi, hk, hc, hbit, hrow⟩
    exact ⟨j, hj, i, hi, hc.symm, k, hk, hbit, (stripRow_iff hp0 hb hk j.cast_nonneg).2 hrow⟩

/-- Settles O18: bit by bit, the clear of the rectangle and then the strip bytes, wherever the split puts their bits. -/
theorem plotImageCompletes : Obligations.PlotImageCompletes := fun s x y w h st hq hlen =>
  ⟨_, exec_plotImage_of_quiet hq x y w h hlen, fun _ _ _ hp hb => getLsbD_fbByte_doFb_plot s _ _ _ _ st hp hb,
    done_doFb_eq s (by simp) .ok⟩

end Sys2Proof.Machine

/-! The serial framer (41_serial_bus.md R131 to R137) and the wire commands (43_wire_commands.md): the events of frames, what a
receiver makes of them, and the operations that put them on the wire. -/

namespace Sys2Proof.Machine

open Sys2Proof.Safety

/-! ### The events of a frame -/

theorem length_flatMap_cells (bs : List Byte) : (bs.flatMap cells).length = 24 * bs.length := by
  induction bs with
  | nil => rfl
  | cons b bs ih => rw [List.flatMap_cons, List.length_append, ih, List.length_cons, Nat.mul_succ, Nat.add_comm]; rfl

theorem length_frameEvents (cfg : Params) (k : Kind) (bs : List Byte) :
    (frameEvents cfg k bs).length = 3 + 24 * bs.length := by
  simp only [frameEvents, List.length_cons, List.length_append, List.length_nil, length_flatMap_cells]
  omega

/-- A cell drives SCLK and SDA only. -/
theorem mem_cells {v : Byte} {e : Event} (he : e ∈ cells v) : ∃ l, e = .drive .sclk l ∨ e = .drive .sda l := by
  rw [← eventsOf_shiftByte, shiftByte, eventsOf_flatMap] at he
  obtain ⟨k, -, hk⟩ := List.mem_flatMap.1 he
  have hcell : e = .drive .sclk false ∨ e = .drive .sda (v.getLsbD k) ∨ e = .drive .sclk true := by
    simpa [bitCell, eventsOf, SeqOp.event] using hk
  rcases hcell with h | h | h
  · exact ⟨_, .inl h⟩
  · exact ⟨_, .inr h⟩
  · exact ⟨_, .inl h⟩

/-- Settles O27: the frame's micro-operations are its events, 24 for each byte. -/
theorem frameShape : Obligations.FrameShape := by
  intro cfg k bs
  refine ⟨eventsOf_frame cfg k bs, length_frameEvents cfg k bs, fun e he => ?_⟩
  obtain ⟨b, -, hb⟩ := List.mem_flatMap.1 he
  exact mem_cells hb

/-! ### What a receiver makes of events -/

/-- Every receiver, whatever it saw before, makes these items of the events. -/
def Shows (cfg : Params) (es : List Event) (items : List Item) : Prop := ∀ r : Receiver, byteView cfg r es = items

theorem byteView_append (cfg : Params) (es es' : List Event) :
    ∀ r : Receiver, byteView cfg r (es ++ es') = byteView cfg r es ++ byteView cfg (r.after cfg es) es' := by
  induction es with
  | nil => intro r; rfl
  | cons e es ih => intro r; rw [List.cons_append, byteView, ih, byteView, List.append_assoc, Receiver.after]

section
variable {cfg : Params}

theorem Shows.nil : Shows cfg [] [] := fun _ => rfl

theorem Shows.append {es es' : List Event} {is is' : List Item} (h : Shows cfg es is) (h' : Shows cfg es' is') :
    Shows cfg (es ++ es') (is ++ is') := fun r => by rw [byteView_append, h, h']

theorem Shows.flatMap {α : Type} {f : α → List Event} {g : α → List Item} (h : ∀ a, Shows cfg (f a) (g a))
    (l : List α) : Shows cfg (l.flatMap f) (l.flatMap g) := by
  induction l with
  | nil => exact .nil
  | cons a l ih => exact (h a).append ih

/-- A selected receiver with no bit pending takes the bytes of the cells, and the end of the frame completes none. -/
theorem byteView_flatMap_cells (bs : List Byte) (l : Level) :
    ∀ {r : Receiver}, r.cs = cfg.csActiveLevel → r.bits = [] →
      byteView cfg r (bs.flatMap cells ++ [.drive .cs l]) = bs.map (.byte (kindOfLevel cfg r.dc)) := by
  induction bs with
  | nil => intro r _ _; rfl
  | cons b bs ih =>
    intro r hcs hbits
    rw [List.flatMap_cons, List.append_assoc, byteView_cells_append hcs hbits, ih (by exact hcs) rfl]
    rfl

theorem kindOfLevel_dcLevel (cfg : Params) (k : Kind) : kindOfLevel cfg (dcLevel cfg k) = k := by
  cases k with
  | cmd => exact if_pos rfl
  | data => exact if_neg (Bool.not_ne_self _)

/-- A frame shows its bytes, each tagged with the frame's kind (41_serial_bus.md R137). -/
theorem shows_frameEvents (k : Kind) (bs : List Byte) : Shows cfg (frameEvents cfg k bs) (bs.map (.byte k)) := by
  intro r
  rw [frameEvents, ← drive_dcLevel]
  show byteView cfg { r with dc := dcLevel cfg k, cs := cfg.csActiveLevel, bits := [] } _ = _
  rw [byteView_flatMap_cells bs _ rfl rfl]
  show bs.map (Item.byte (kindOfLevel cfg (dcLevel cfg k))) = _
  rw [kindOfLevel_dcLevel]

theorem shows_dataFrames (bursts : List (List Byte)) :
    Shows cfg (eventsOf (bursts.flatMap (frame cfg .data))) (bursts.flatten.map (.byte .data)) := by
  simp only [eventsOf_flatMap, eventsOf_frame, List.map_flatten, ← List.flatMap_def]
  exact Shows.flatMap (fun bs => shows_frameEvents .data bs) bursts

theorem shows_sendPayload (bs : List Byte) : Shows cfg (eventsOf (sendPayload cfg bs)) (bs.map (.byte .data)) := by
  obtain ⟨bursts, rfl, h⟩ := sendPayload_eq_frames cfg bs
  rw [h]
  exact shows_dataFrames bursts

theorem shows_wireOps (op : Byte) (p : List Byte) : Shows cfg (eventsOf (wireOps cfg op p)) (commandItems op p) := by
  obtain ⟨bursts, rfl, h⟩ := wireOps_eq_frames cfg op p
  rw [h, eventsOf_append, eventsOf_frame]
  exact (shows_frameEvents .cmd [op]).append (shows_dataFrames bursts)

end

/-- Settles O29: a frame shows its bytes, and WRCMD and WRDATA emit one frame each. -/
theorem frameByteView : Obligations.FrameByteView := by
  refine ⟨fun cfg k bs r => ?anyFrame, fun s b r hq => ?wrCmd, fun s n st r hq hn hlen => ?wrData⟩
  case anyFrame => rw [eventsOf_frame, shows_frameEvents]
  case wrCmd => exact ⟨_, _, exec_wrCmd_of_quiet hq b, rfl, by rw [eventsOf_frame, shows_frameEvents]; rfl⟩
  case wrData =>
    have hpos : n.toNat ≠ 0 := fun h0 => hn (BitVec.eq_of_toNat_eq h0)
    exact ⟨_, _, exec_wrData_of_quiet hq hpos hlen, rfl, by rw [eventsOf_frame, shows_frameEvents]⟩

/-! ### Payloads and commands as the spec writes them out -/

theorem eventsOf_sendPayload (cfg : Params) (bs : List Byte) : eventsOf (sendPayload cfg bs) = payloadEvents cfg bs := by
  rw [sendPayload, payloadEvents.eq_def]
  cases bs with
  | nil => cases cfg.dataFraming <;> rfl
  | cons b bs =>
    cases cfg.dataFraming with
    | perPayload => exact eventsOf_frame cfg .data (b :: bs)
    | perByte => simp only [eventsOf_flatMap, writeData, eventsOf_frame]

theorem eventsOf_emit (cfg : Params) (op : Byte) (p : List Byte) : eventsOf (emit cfg op p) = commandEvents cfg op p := by
  rw [emit, eventsOf_append, writeCommand, eventsOf_frame, eventsOf_sendPayload, commandEvents]

theorem eventsOf_hostSend (cfg : Params) (op : Byte) (p : List Byte) :
    eventsOf (hostSend cfg op p) = hostCommandEvents cfg op p := by
  rw [hostSend, eventsOf_append, writeCommand, eventsOf_frame, hostCommandEvents]
  cases p with
  | nil => rfl
  | cons b p => simp only [List.isEmpty_cons, Bool.false_eq_true, if_false, reduceCtorEq, writeData, eventsOf_frame]

/-- Settles O30: both framings are data frames that hold the payload's bytes in order. -/
theorem payloadFramingsAgree : Obligations.PayloadFramingsAgree := by
  intro cfg framing bs r
  refine ⟨eventsOf_sendPayload _ bs, ?_⟩
  rw [← eventsOf_sendPayload]
  obtain ⟨bursts, rfl, h⟩ := sendPayload_eq_frames { cfg with dataFraming := framing } bs
  rw [h]
  exact shows_dataFrames (cfg := cfg) bursts r

/-! ### WRCMD and WRDATA complete (41_serial_bus.md R133, R134) -/

/-- Settles O31: WRCMD is one frame and Finish(OK). -/
theorem wrCmdCompletes : Obligations.WrCmdCompletes := by
  intro s b hq
  rw [exec_wrCmd_of_quiet hq, eventsOf_frame]

/-- Settles O32: WRDATA is one frame and Finish(OK), with no use of DATA_FRAMING. -/
theorem wrDataCompletes : Obligations.WrDataCompletes := by
  intro s n st hq hn hlen
  have hpos : n.toNat ≠ 0 := fun h0 => hn (BitVec.eq_of_toNat_eq h0)
  rw [exec_wrData_of_quiet hq hpos hlen, eventsOf_frame]

/-! ### The wire commands complete (43_wire_commands.md) -/

/-- Frames put in front of an empty sequence, where nothing else is under way and nothing arrives. -/
theorem State.advance_running_plain {s : State} (hq : Quiet s) (hidle : Idle s) {l : List SeqOp} (hl : Plain l) :
    (s.running s.busyOp (l ++ s.seq)).advance = emitted s (eventsOf l) := by
  have hseq : s.seq = [] := hidle
  rw [hseq, State.advance_plain s hq _ hl, State.advance_nil, ← hseq]
  rfl

theorem State.emitWire_of_quiet {s : State} (hq : Quiet s) (hidle : Idle s) (op : Byte) (p : List Byte) :
    s.emitWire op p = emitted s (commandEvents s.cfg op p) := by
  rw [State.emitWire_eq, State.advance_running_plain hq hidle (emit_plain s.cfg op p), eventsOf_emit]

theorem State.sendWire_of_quiet {s : State} (hq : Quiet s) (hidle : Idle s) (op : Byte) (p : List Byte) :
    s.sendWire op p = emitted s (hostCommandEvents s.cfg op p) := by
  rw [State.sendWire_eq, State.advance_running_plain hq hidle (hostSend_plain s.cfg op p), eventsOf_hostSend]

theorem length_hostCommandEvents (cfg : Params) (op : Byte) {p : List Byte} (hp : p ≠ []) :
    (hostCommandEvents cfg op p).length = 27 + (3 + 24 * p.length) := by
  rw [hostCommandEvents, if_neg hp, List.length_append, length_frameEvents, length_frameEvents]
  rfl

/-- Settles O47: a wire command is Emit or SEND, and where nothing else is under way its frames are all there is to do. -/
theorem wireCommandsComplete : Obligations.WireCommandsComplete := by
  refine ⟨fun s p hq hidle => ⟨?emitted, ?hostOnly⟩, fun cfg p hp => ?lut⟩
  case emitted =>
    simp only [List.forall_mem_cons, List.not_mem_nil, false_imp_iff, implies_true, and_true,
      ← State.emitWire_of_quiet hq hidle]
    exact ⟨rfl, rfl, rfl, rfl, rfl, rfl, rfl, rfl, rfl, rfl, rfl, rfl, rfl, rfl⟩
  case hostOnly =>
    simp only [List.forall_mem_cons, List.not_mem_nil, false_imp_iff, implies_true, and_true,
      ← State.sendWire_of_quiet hq hidle]
    exact ⟨rfl, rfl, rfl⟩
  case lut =>
    have hne : p ≠ [] := by rintro rfl; cases hp
    rw [length_hostCommandEvents cfg _ hne, hp]

/-! ### SEND (30_encoding.md R85) -/

theorem asmByte_toNat (v : Byte) : asmByte v.toNat = some v := by
  have hv := v.isLt
  rw [asmByte, if_pos (by omega), BitVec.ofInt_natCast, BitVec.ofNat_toNat, BitVec.setWidth_eq]

theorem asmHalf_natCast {n : Nat} (hn : n ≤ 65535) : asmHalf n = some (BitVec.ofNat 16 n) := by
  rw [asmHalf, if_pos (by omega), BitVec.ofInt_natCast]

theorem asmBytes_toNat (l : List Byte) : asmBytes (l.map fun v => (v.toNat : Int)) = some l := by
  induction l with
  | nil => rfl
  | cons v l ih => rw [List.map_cons, asmBytes, asmByte_toNat, ih]

theorem asmWrCmd_toNat (op : Byte) : asmWrCmd op.toNat = some (encode (.wrCmd op [])) := by
  rw [asmWrCmd, asmByte_toNat]
  rfl

theorem asmWrData_toNat {l : List Byte} (hl : l.length ≤ 65535) :
    asmWrData (l.map fun v => (v.toNat : Int)) = some (encode (.wrData (BitVec.ofNat 16 l.length) l)) := by
  rw [asmWrData, asmStream, List.length_map, if_pos hl, asmBytes_toNat, asmHalf_natCast hl]
  rfl

theorem assemble_send_nil (op : Byte) : assemble (.send op.toNat []) = some [encode (.wrCmd op [])] := by
  rw [assemble, asmWrCmd_toNat]
  rfl

theorem assemble_send_cons (op b : Byte) {p : List Byte} (hlen : (b :: p).length ≤ 65535) :
    assemble (.send op.toNat ((b :: p).map fun v => (v.toNat : Int))) =
      some [encode (.wrCmd op []), encode (.wrData (BitVec.ofNat 16 (b :: p).length) (b :: p))] := by
  have hdata := asmWrData_toNat hlen
  rw [List.map_cons] at hdata ⊢
  rw [assemble, asmWrCmd_toNat, hdata]
  rfl

/-- Two operations, one after the other: the events of both. -/
theorem done_emitted_done_emitted (s : State) (es es' : List Event) (code code' : Err) :
    done (emitted (done (emitted s es) code) es') code' = done (emitted s (es ++ es')) code' := by
  simp [done, emitted]

theorem exec_wire_of_quiet {s : State} (hq : Quiet s) (hidle : Idle s) {b : Bool} {op : Byte} {p : List Byte} {i : Instr}
    (hi : decode b (.wire op p) = .ok i) : exec i s = .next (emitted s (eventsOf (wireOps s.cfg op p))) := by
  rw [exec_wire hi, State.advance_running_plain hq hidle (wireOps_plain s.cfg op p)]

/-- Settles O49: SEND is a command frame and a data frame, and a receiver makes the same of the frames of the wire command. -/
theorem sendEqualsWireCommand : Obligations.SendEqualsWireCommand := by
  intro s op b p hq hlen
  have hcmd := wrCmdCompletes s op hq
  refine ⟨assemble_send_nil op, assemble_send_cons op b hlen, ?command, ?withPayload, fun hidle hb i payload hi => ?wire⟩
  case command => exact ⟨_, _, hcmd, rfl, shows_frameEvents .cmd [op] _⟩
  case withPayload =>
    have htoNat : (BitVec.ofNat 16 (b :: p).length).toNat = (b :: p).length := by
      rw [BitVec.toNat_ofNat, Nat.mod_eq_of_lt (by omega)]
    have hne : BitVec.ofNat 16 (b :: p).length ≠ 0#16 := by
      intro h0
      rw [h0] at htoNat
      cases htoNat
    have hdata := wrDataCompletes (done (emitted s (frameEvents s.cfg .cmd [op])) .ok) _ (b :: p) hq hne htoNat.symm
    refine ⟨_, _, _, hcmd, hdata, done_emitted_done_emitted s _ _ _ _, ?_⟩
    exact ((shows_frameEvents .cmd [op]).append (shows_frameEvents .data (b :: p))) _
  case wire => exact ⟨_, exec_wire_of_quiet hq hidle hi, shows_wireOps op payload _⟩

end Sys2Proof.Machine

/-! The waits of the framer and the panel sequencer (41_serial_bus.md R135, R136, 42_panel_controller.md): how far an
undisturbed operation has come, INIT and UPDATE to their ends and to the waits they can hang at. -/

namespace Sys2Proof.Machine

open Sys2Proof.Safety

/-! ### How far an undisturbed operation has come -/

/-- The state `s` when an operation started in it has set PSTATE to `p`, emitted these events and sampled BUSY `n` times. -/
def State.progress (s : State) (p : PState) (es : List Event) (n : Nat) : State :=
  { emitted s es with pstate := p, busyIn := s.busyIn.drop n, samples := s.samples + n }

section
variable (s : State) (p : PState) (es : List Event) (n : Nat)

theorem State.progress_start : s.progress s.pstate [] 0 = s := rfl

theorem State.emitted_progress (es' : List Event) : emitted (s.progress p es n) es' = s.progress p (es ++ es') n := by
  simp [emitted, State.progress]

theorem State.busyAt_progress (k : Nat) : (s.progress p es n).busyAt k = s.busyAt (n + k) := by
  simp only [State.busyAt, State.busyLevelAt, State.progress, emitted, List.getD_eq_getElem?_getD, List.getElem?_drop,
    Nat.add_assoc]

theorem State.sample_progress : (s.progress p es n).sample = s.progress p (es ++ [.sample (s.busyAt n)]) (n + 1) := by
  have hbusy : (s.progress p es n).busyAt 0 = s.busyAt n := State.busyAt_progress s p es n 0
  rw [State.sample, hbusy]
  simp [State.progress, emitted, Pins.onEvent, Nat.add_assoc]

theorem State.delay_progress (ms : Nat) : (s.progress p es n).delay ms = s.progress p (es ++ [.delay ms]) n :=
  State.emitted_progress s p es n [.delay ms]

end

section
variable {s : State} (hq : Quiet s) (p : PState) (es : List Event) (n : Nat) (b : Bool) (rest : List SeqOp)
include hq

theorem State.advance_progress_plain {l : List SeqOp} (hl : Plain l) :
    ((s.progress p es n).running b (l ++ rest)).advance = ((s.progress p (es ++ eventsOf l) n).running b rest).advance := by
  rw [State.advance_plain (s.progress p es n) hq b hl, State.emitted_progress]

theorem State.advance_progress_setPState (q : PState) :
    ((s.progress p es n).running b (.setPState q :: rest)).advance = ((s.progress q es n).running b rest).advance :=
  State.advance_setPState (s.progress p es n) hq b q rest

/-- Commands of INIT and UPDATE, one after the other. -/
theorem State.advance_progress_wires {l : List (Byte × List Byte)} (hl : ∀ c ∈ l, hostOnly c.1 = false) :
    ((s.progress p es n).running b (l.map (fun c => .wire c.1 c.2) ++ rest)).advance =
      ((s.progress p (es ++ l.flatMap fun c => commandEvents s.cfg c.1 c.2) n).running b rest).advance := by
  induction l generalizing es with
  | nil => rw [List.flatMap_nil, List.append_nil]; rfl
  | cons c l ih =>
    obtain ⟨hc, hl⟩ := List.forall_mem_cons.1 hl
    have hcmd : eventsOf (wireOps s.cfg c.1 c.2) = commandEvents s.cfg c.1 c.2 := by
      rw [wireOps_of_not_hostOnly hc, eventsOf_emit]
    rw [List.map_cons, List.cons_append, State.advance_wire (s.progress p es n) hq b, State.emitted_progress, ih _ hl,
      List.flatMap_cons, ← List.append_assoc]
    exact congrArg (fun e => ((s.progress p (es ++ e ++ _) n).running b rest).advance) hcmd

theorem State.advance_progress_finish (code : Err) :
    ((s.progress p es n).running b (.finish code :: rest)).advance = done (s.progress p es n) code :=
  State.advance_finish (s.progress p es n) hq b code rest

theorem State.advance_progress_finishIdle :
    ((s.progress p es n).running b (.finishIdle :: rest)).advance = done (s.progress .idle es n) .ok :=
  State.advance_finishIdle (s.progress p es n) hq b rest

/-! ### Unbounded waits (41_serial_bus.md R135) -/

/-- A step from a wait goes on with the wait. -/
theorem step_progress_poll :
    step ((s.progress p es n).running b (.poll :: rest)) = .next ((s.progress p es n).running b (.poll :: rest)).advance := by
  have hdue : ((s.progress p es n).running b (.poll :: rest)).inputDue = false := by
    have hhost : ((s.progress p es n).running b (.poll :: rest)).host = [] := hq
    rw [State.inputDue, hhost]
  rw [step_of_not_due (List.cons_ne_nil _ _) hdue]
  rfl

/-- A wait that samples busy: its step ends there. -/
theorem State.advance_progress_poll_busy (hb : s.busyAt n = true) :
    ((s.progress p es n).running b (.poll :: rest)).advance =
      (s.progress p (es ++ [.sample true]) (n + 1)).running b (.poll :: rest) := by
  rw [State.advance_poll_busy (s.progress p es n) hq ((State.busyAt_progress s p es n 0).trans hb), State.sample_progress, hb]

/-- A wait that samples not-busy: the settle delay, and the operation goes on. -/
theorem State.advance_progress_poll_done (hb : s.busyAt n = false) :
    ((s.progress p es n).running b (.poll :: .delay s.cfg.tSettleMs :: rest)).advance =
      ((s.progress p (es ++ waitEvents s.cfg) (n + 1)).running b rest).advance := by
  rw [State.advance_poll (s.progress p es n) hq ((State.busyAt_progress s p es n 0).trans hb), State.sample_progress, hb,
    State.advance_delay (s.progress p _ _) hq, State.delay_progress, List.append_assoc]
  rfl

/-- As many steps as busy samples: the wait is where it was, the samples are taken. -/
theorem steps_progress_busy {k : Nat} (hb : ∀ j < k, s.busyAt (n + j) = true) :
    steps k ((s.progress p es n).running b (.poll :: rest)).advance =
      .next ((s.progress p (es ++ List.replicate k (.sample true)) (n + k)).running b (.poll :: rest)).advance := by
  induction k generalizing es n with
  | zero => rw [List.replicate_zero, List.append_nil]; rfl
  | succ k ih =>
    have hfirst : s.busyAt n = true := hb 0 (Nat.succ_pos k)
    have hlater : ∀ j < k, s.busyAt (n + 1 + j) = true := fun j hj => by
      rw [Nat.add_assoc, Nat.add_comm 1]
      exact hb (j + 1) (Nat.succ_lt_succ hj)
    rw [State.advance_progress_poll_busy hq p es n b rest hfirst, steps, step_progress_poll hq]
    dsimp only
    rw [ih _ _ hlater, List.append_assoc, Nat.add_right_comm, Nat.add_assoc]
    rfl

/-- A wait that returns after `k` busy samples: `k` steps later the operation goes on with what follows it. -/
theorem steps_progress_wait {k : Nat} (hb : BusyTimes s n k) :
    steps k ((s.progress p es n).running b (.poll :: .delay s.cfg.tSettleMs :: rest)).advance =
      .next ((s.progress p (es ++ busyWaitEvents s.cfg k) (n + k + 1)).running b rest).advance := by
  rw [steps_progress_busy hq p es n b _ hb.1, State.advance_progress_poll_done hq _ _ _ _ _ hb.2, List.append_assoc]
  rfl

/-- A wait under a panel that stays busy: after any number of steps the operation still stands at it. -/
theorem steps_progress_hang {k : Nat} (hb : ∀ j ≤ k, s.busyAt (n + j) = true) :
    steps k ((s.progress p es n).running b (.poll :: rest)).advance =
      .next ((s.progress p (es ++ List.replicate (k + 1) (.sample true)) (n + k + 1)).running b (.poll :: rest)) := by
  rw [steps_progress_busy hq p es n b rest fun j hj => hb j hj.le,
    State.advance_progress_poll_busy hq _ _ _ _ _ (hb k le_rfl), List.append_assoc, ← List.replicate_succ']

/-! ### Bounded waits (41_serial_bus.md R136) -/

theorem State.advance_progress_pollBounded_busy {k : Nat} (m : Nat) (hb : ∀ j < k, s.busyAt (n + j) = true) :
    ((s.progress p es n).running b (.pollBounded (k + m) :: rest)).advance =
      ((s.progress p (es ++ List.replicate k (.sample true)) (n + k)).running b (.pollBounded m :: rest)).advance := by
  induction k generalizing es n with
  | zero => rw [List.replicate_zero, List.append_nil, Nat.zero_add]; rfl
  | succ k ih =>
    have hfirst : s.busyAt n = true := hb 0 (Nat.succ_pos k)
    have hlater : ∀ j < k, s.busyAt (n + 1 + j) = true := fun j hj => by
      rw [Nat.add_assoc, Nat.add_comm 1]
      exact hb (j + 1) (Nat.succ_lt_succ hj)
    rw [Nat.add_right_comm,
      State.advance_pollBounded_busy (s.progress p es n) hq ((State.busyAt_progress s p es n 0).trans hfirst),
      State.sample_progress, hfirst, ih _ _ hlater, List.append_assoc, Nat.add_right_comm, Nat.add_assoc]
    rfl

theorem State.advance_progress_pollBounded_done (m : Nat) (hb : s.busyAt n = false) :
    ((s.progress p es n).running b (.pollBounded (m + 1) :: rest)).advance =
      done (s.progress p (es ++ waitEvents s.cfg) (n + 1)) .ok := by
  rw [State.advance_pollBounded (s.progress p es n) hq ((State.busyAt_progress s p es n 0).trans hb), State.sample_progress, hb,
    State.delay_progress, List.append_assoc]
  rfl

end

/-- Steps in succession. -/
theorem steps_add {s t : State} {m : Nat} (n : Nat) (h : steps m s = .next t) : steps (m + n) s = steps n t := by
  induction m generalizing s with
  | zero => cases h; rw [Nat.zero_add]
  | succ m ih =>
    obtain ⟨u, hu⟩ := everyStepAnswersNext s
    rw [steps, hu] at h
    rw [Nat.add_right_comm, steps, hu]
    exact ih h

theorem foldl_onEvent_samples (k : Nat) (p : Pins) : (List.replicate k (Event.sample true)).foldl Pins.onEvent p = p := by
  induction k with
  | zero => rfl
  | succ k ih => exact ih

/-! ### WAITBUSY and WAITBUSYB -/

theorem exec_waitBusy_of_quiet (s : State) :
    exec (.waitBusy []) s =
      .next ((s.progress s.pstate [] 0).running true [.poll, .delay s.cfg.tSettleMs, .finish .ok]).advance :=
  exec_of_issue rfl rfl

theorem busyTimes_zero_iff {s : State} {k : Nat} :
    BusyTimes s 0 k ↔ (∀ j < k, s.busyAt j = true) ∧ s.busyAt k = false := by
  simp only [BusyTimes, Nat.zero_add]

/-- Settles O34: the steps after the busy samples end the wait, the delay and the operation. -/
theorem waitBusyEndsAtFirstNotBusy : Obligations.WaitBusyEndsAtFirstNotBusy := by
  intro s k hq hbusy hnot
  refine ⟨_, exec_waitBusy_of_quiet s, ?_⟩
  rw [steps_progress_wait hq _ _ _ _ _ (busyTimes_zero_iff.2 ⟨hbusy, hnot⟩), State.advance_progress_finish hq, Nat.zero_add]
  rfl

/-- Settles O33: the wait with no busy sample needs no step after exec. -/
theorem waitBusyCompletes : Obligations.WaitBusyCompletes := by
  intro s hq hnot
  obtain ⟨t, ht, hdone⟩ := waitBusyEndsAtFirstNotBusy s 0 hq (by simp) hnot
  rw [ht, ← List.drop_one]
  exact hdone

/-- Settles O35: each step takes one more busy sample, and no step ends the wait. -/
theorem waitBusyHangsWhileBusy : Obligations.WaitBusyHangsWhileBusy := by
  intro s n hq hbusy
  refine ⟨_, exec_waitBusy_of_quiet s, ?_⟩
  rw [steps_progress_hang hq _ _ _ _ _ (by simpa using hbusy)]
  simp [State.progress, emitted, State.running, foldl_onEvent_samples]

theorem exec_waitBusyB_of_quiet {s : State} (hw : s.cfg.hasBoundedWait = true) {limit : Half} (hlimit : limit ≠ 0#16) :
    exec (.waitBusyB limit []) s = .next ((s.progress s.pstate [] 0).running true [.pollBounded limit.toNat]).advance := by
  have hpos : limit.toNat ≠ 0 := fun h0 => hlimit (BitVec.eq_of_toNat_eq h0)
  rw [exec, execWaitBusyB, if_pos hw, State.issue_of_argsOk (argsOk_waitBusyB_iff.2 ⟨hpos, rfl⟩)]
  rfl

/-- Settles O36: the busy samples use up the limit, and a not-busy one before that ends the wait. -/
theorem waitBusyBCompletes : Obligations.WaitBusyBCompletes := by
  intro s limit hq hw hlimit
  rw [exec_waitBusyB_of_quiet hw hlimit]
  refine ⟨fun k hk hbusy hnot => ?done, fun hbusy => ?timeout⟩
  case done =>
    obtain ⟨m, hm⟩ := Nat.exists_eq_add_of_lt hk
    rw [hm, Nat.add_assoc, State.advance_progress_pollBounded_busy hq _ _ _ _ _ (m + 1) (by simpa using hbusy),
      State.advance_progress_pollBounded_done hq _ _ _ _ _ _ (by simpa using hnot), Nat.zero_add]
    rfl
  case timeout =>
    rw [← Nat.add_zero limit.toNat, State.advance_progress_pollBounded_busy hq _ _ _ _ _ 0 (by simpa using hbusy),
      State.advance_pollBounded_zero (s.progress _ _ _) hq, Nat.zero_add]
    rfl

/-! ### What a receiver makes of the waits and the reset pulse -/

section
variable {cfg : Params}

theorem shows_samples (k : Nat) : Shows cfg (List.replicate k (.sample true)) (List.replicate k (.sample true)) := by
  induction k with
  | zero => exact .nil
  | succ k ih => exact fun r => congrArg (Item.sample true :: ·) (ih r)

theorem shows_busyWaitEvents (k : Nat) : Shows cfg (busyWaitEvents cfg k) (busyWaitItems cfg k) :=
  (shows_samples k).append fun _ => rfl

theorem shows_resetPulseEvents :
    Shows cfg (resetPulseEvents cfg)
      [.res (!cfg.resActiveLevel), .delay cfg.tRstPreMs, .res cfg.resActiveLevel, .delay cfg.tRstActiveMs,
        .res (!cfg.resActiveLevel), .delay cfg.tRstPostMs] := fun _ => rfl

theorem shows_commandEvents (op : Byte) (p : List Byte) : Shows cfg (commandEvents cfg op p) (commandItems op p) := by
  rw [← eventsOf_emit, emit, eventsOf_append, writeCommand, eventsOf_frame]
  exact (shows_frameEvents .cmd [op]).append (shows_sendPayload p)

theorem shows_commands (l : List (Byte × List Byte)) :
    Shows cfg (l.flatMap fun c => commandEvents cfg c.1 c.2) (l.flatMap fun c => commandItems c.1 c.2) :=
  Shows.flatMap (f := fun c : Byte × List Byte => commandEvents cfg c.1 c.2) (g := fun c => commandItems c.1 c.2)
    (fun c => shows_commandEvents c.1 c.2) l

end

/-! ### INIT, wait by wait (42_panel_controller.md R162) -/

/-- INIT after its first wait. -/
def initAfterFirstWait (cfg : Params) (rest : List SeqOp) : List SeqOp :=
  [(0x12#8, ([] : List Byte))].map (fun c => .wire c.1 c.2) ++ .poll :: .delay cfg.tSettleMs :: rest

/-- INIT's commands between its second and its third wait, in order. -/
def initCommands (cfg : Params) : List (Byte × List Byte) :=
  configSeq cfg ++ [(0x24#8, List.replicate cfg.initFillCount cfg.initFill)]

/-- INIT after its second wait. -/
def initAfterSecondWait (cfg : Params) : List SeqOp :=
  .setPState .configuring ::
    ((initCommands cfg).map (fun c => .wire c.1 c.2) ++ [.poll, .delay cfg.tSettleMs, .finishIdle])

theorem initOps_eq (cfg : Params) :
    initOps cfg = resetPulse cfg ++ .setPState .softReset :: .poll :: .delay cfg.tSettleMs ::
      initAfterFirstWait cfg (initAfterSecondWait cfg) := rfl

theorem plain_resetPulse (cfg : Params) : Plain (resetPulse cfg) := by
  intro op ho
  fin_cases ho <;> rfl

theorem configEvents_eq (cfg : Params) :
    (initCommands cfg).flatMap (fun c => commandEvents cfg c.1 c.2) = configEvents cfg := by
  simp [initCommands, configSeq, configEvents]

theorem initCommands_not_hostOnly (cfg : Params) : ∀ c ∈ initCommands cfg, hostOnly c.1 = false := by
  simp [initCommands, configSeq, hostOnly]

theorem argsOk_init : argsOk (.init []) = true := rfl

/-- INIT's events, its waits returning after these numbers of busy samples. -/
def initRunEvents (cfg : Params) (k₀ k₁ k₂ : Nat) : List Event :=
  resetPulseEvents cfg ++ busyWaitEvents cfg k₀ ++ commandEvents cfg 0x12#8 [] ++ busyWaitEvents cfg k₁ ++ configEvents cfg
    ++ busyWaitEvents cfg k₂

section
variable {s : State} (hq : Quiet s) (p : PState) (es : List Event) (n : Nat) (b : Bool)
include hq

theorem exec_init_of_quiet :
    exec (.init []) s =
      .next ((s.progress .softReset (resetPulseEvents s.cfg) 0).running true
        (.poll :: .delay s.cfg.tSettleMs :: initAfterFirstWait s.cfg (initAfterSecondWait s.cfg))).advance := by
  have hstart : ({ s with pstate := .uninit } : State).accept (initOps s.cfg) =
      (s.progress .uninit [] 0).running true (initOps s.cfg) := rfl
  rw [exec, execInit, if_pos argsOk_init, hstart, initOps_eq,
    State.advance_progress_plain hq _ _ _ _ _ (plain_resetPulse s.cfg), State.advance_progress_setPState hq]
  rfl

theorem advance_initAfterFirstWait (rest : List SeqOp) :
    ((s.progress p es n).running b (initAfterFirstWait s.cfg rest)).advance =
      ((s.progress p (es ++ commandEvents s.cfg 0x12#8 []) n).running b (.poll :: .delay s.cfg.tSettleMs :: rest)).advance := by
  rw [initAfterFirstWait, State.advance_progress_wires hq _ _ _ _ _ (by simp [hostOnly]), List.flatMap_singleton]

theorem advance_initAfterSecondWait :
    ((s.progress p es n).running b (initAfterSecondWait s.cfg)).advance =
      ((s.progress .configuring (es ++ configEvents s.cfg) n).running b
        [.poll, .delay s.cfg.tSettleMs, .finishIdle]).advance := by
  rw [initAfterSecondWait, State.advance_progress_setPState hq,
    State.advance_progress_wires hq _ _ _ _ _ (initCommands_not_hostOnly s.cfg), configEvents_eq]

end

section
variable {s : State} (hq : Quiet s) {k₀ k₁ k₂ : Nat}
include hq

/-- INIT comes to its second wait when the first has returned. -/
theorem init_comes_to_secondWait (h₀ : BusyTimes s 0 k₀) :
    ∃ t, exec (.init []) s = .next t ∧
      steps k₀ t =
        .next ((s.progress .softReset
            (resetPulseEvents s.cfg ++ busyWaitEvents s.cfg k₀ ++ commandEvents s.cfg 0x12#8 []) (k₀ + 1)).running true
          (.poll :: .delay s.cfg.tSettleMs :: initAfterSecondWait s.cfg)).advance := by
  refine ⟨_, exec_init_of_quiet hq, ?_⟩
  rw [steps_progress_wait hq _ _ _ _ _ h₀, advance_initAfterFirstWait hq, Nat.zero_add]

/-- INIT comes to its third wait when the second has returned. -/
theorem init_comes_to_thirdWait (h₀ : BusyTimes s 0 k₀) (h₁ : BusyTimes s (k₀ + 1) k₁) :
    ∃ t, exec (.init []) s = .next t ∧
      steps (k₀ + k₁) t =
        .next ((s.progress .configuring
            (resetPulseEvents s.cfg ++ busyWaitEvents s.cfg k₀ ++ commandEvents s.cfg 0x12#8 [] ++ busyWaitEvents s.cfg k₁
              ++ configEvents s.cfg) (k₀ + 1 + k₁ + 1)).running true
          [.poll, .delay s.cfg.tSettleMs, .finishIdle]).advance := by
  obtain ⟨t, ht, hsteps⟩ := init_comes_to_secondWait hq h₀
  refine ⟨t, ht, ?_⟩
  rw [steps_add _ hsteps, steps_progress_wait hq _ _ _ _ _ h₁, advance_initAfterSecondWait hq]

/-- INIT finishes when its third wait has returned. -/
theorem init_finishes (h₀ : BusyTimes s 0 k₀) (h₁ : BusyTimes s (k₀ + 1) k₁)
    (h₂ : BusyTimes s (k₀ + 1 + k₁ + 1) k₂) :
    ∃ t, exec (.init []) s = .next t ∧
      steps (k₀ + k₁ + k₂) t =
        .next (done (s.progress .idle (initRunEvents s.cfg k₀ k₁ k₂) (k₀ + 1 + k₁ + 1 + k₂ + 1)) .ok) := by
  obtain ⟨t, ht, hsteps⟩ := init_comes_to_thirdWait hq h₀ h₁
  refine ⟨t, ht, ?_⟩
  rw [steps_add _ hsteps, steps_progress_wait hq _ _ _ _ _ h₂, State.advance_progress_finishIdle hq, initRunEvents]

end

theorem busyTimes_none {s : State} {n : Nat} (h : s.busyAt n = false) : BusyTimes s n 0 :=
  ⟨fun _ hj => absurd hj (Nat.not_lt_zero _), h⟩

/-- Settles O38: with no busy sample INIT finishes within exec. -/
theorem initCompletes : Obligations.InitCompletes := by
  intro s hq h0 h1 h2
  obtain ⟨t, ht, hdone⟩ := init_finishes hq (busyTimes_none h0) (busyTimes_none h1) (busyTimes_none h2)
  rw [ht]
  exact hdone

theorem shows_initRunEvents {cfg : Params} (k₀ k₁ k₂ : Nat) :
    Shows cfg (initRunEvents cfg k₀ k₁ k₂)
      ([.res (!cfg.resActiveLevel), .delay cfg.tRstPreMs, .res cfg.resActiveLevel, .delay cfg.tRstActiveMs,
          .res (!cfg.resActiveLevel), .delay cfg.tRstPostMs]
        ++ busyWaitItems cfg k₀ ++ commandItems 0x12#8 [] ++ busyWaitItems cfg k₁
        ++ (initCommands cfg).flatMap (fun c => commandItems c.1 c.2) ++ busyWaitItems cfg k₂) := by
  have hconfig := shows_commands (cfg := cfg) (initCommands cfg)
  rw [configEvents_eq] at hconfig
  exact ((((shows_resetPulseEvents.append (shows_busyWaitEvents k₀)).append (shows_commandEvents 0x12#8 [])).append
    (shows_busyWaitEvents k₁)).append hconfig).append (shows_busyWaitEvents k₂)

/-- Settles O39: the events of INIT, read wait by wait and command by command. -/
theorem initByteView : Obligations.InitByteView := by
  intro s k₀ k₁ k₂ r hq h₀ h₁ h₂
  obtain ⟨t, ht, hsteps⟩ := init_finishes hq h₀ h₁ h₂
  refine ⟨t, _, _, ht, hsteps, rfl, rfl, ?_⟩
  rw [shows_initRunEvents]
  simp [initCommands, configSeq, commandItems, busyWaitItems, waitItems]

/-- Settles O40: after the reset pulse INIT stands at its first wait, and no step ends it. -/
theorem initHangsInSoftReset : Obligations.InitHangsInSoftReset := by
  intro s n hq hbusy
  refine ⟨_, _, exec_init_of_quiet hq, steps_progress_hang hq _ _ _ _ _ (by simpa using hbusy), rfl, rfl⟩

/-- Settles O60: INIT comes to each later wait in the steps the earlier ones take, and no further step ends that wait. -/
theorem initHangsAtLaterWaits : Obligations.InitHangsAtLaterWaits := by
  intro s k₀ n hq h₀
  refine ⟨fun hbusy => ?second, fun k₁ h₁ hbusy => ?third⟩
  case second =>
    obtain ⟨t, ht, hsteps⟩ := init_comes_to_secondWait hq h₀
    exact ⟨t, _, ht, (steps_add n hsteps).trans (steps_progress_hang hq _ _ _ _ _ hbusy), rfl, rfl⟩
  case third =>
    obtain ⟨t, ht, hsteps⟩ := init_comes_to_thirdWait hq h₀ h₁
    exact ⟨t, _, ht, (steps_add n hsteps).trans (steps_progress_hang hq _ _ _ _ _ hbusy), rfl, rfl⟩

/-! ### UPDATE (42_panel_controller.md R166 to R170) -/

/-- UPDATE's commands up to the stream, in order. -/
def updateCommands (cfg : Params) (stream : List Byte) : List (Byte × List Byte) :=
  [(0x44#8, cfg.winX.toList), (0x45#8, cfg.winY.toList)]
    ++ (if cfg.updateSetCounters then [(0x4E#8, cfg.cntX.toList), (0x4F#8, cfg.cntY.toList)] else [])
    ++ [(0x24#8, stream)]

/-- UPDATE's refresh commands. -/
def refreshCommands (cfg : Params) : List (Byte × List Byte) := [(0x22#8, [cfg.updMode]), (0x20#8, [])]

theorem updateOps_eq (cfg : Params) (stream : List Byte) :
    updateOps cfg stream =
      (updateCommands cfg stream).map (fun c => .wire c.1 c.2) ++ .setPState .refreshing ::
        ((refreshCommands cfg).map (fun c => .wire c.1 c.2) ++
          [.setPState .busyWait, .poll, .delay cfg.tSettleMs, .finishIdle]) := by
  rw [updateOps, counterPrelude, updateCommands]
  cases cfg.updateSetCounters <;> rfl

theorem updateCommands_not_hostOnly (cfg : Params) (stream : List Byte) :
    ∀ c ∈ updateCommands cfg stream, hostOnly c.1 = false := by
  rw [updateCommands]
  cases cfg.updateSetCounters <;> simp [hostOnly]

theorem updateEvents_eq (cfg : Params) (stream : List Byte) :
    (updateCommands cfg stream).flatMap (fun c => commandEvents cfg c.1 c.2) ++
      (refreshCommands cfg).flatMap (fun c => commandEvents cfg c.1 c.2) = updateEvents cfg stream := by
  rw [updateCommands, refreshCommands, updateEvents]
  cases cfg.updateSetCounters <;> simp

theorem shows_updateEvents {cfg : Params} (stream : List Byte) :
    Shows cfg (updateEvents cfg stream)
      ((updateCommands cfg stream).flatMap (fun c => commandItems c.1 c.2) ++
        (refreshCommands cfg).flatMap (fun c => commandItems c.1 c.2)) := by
  rw [← updateEvents_eq]
  exact (shows_commands _).append (shows_commands _)

/-- Page-major order is the order of the linear index (20_memory.md R51, R58). -/
theorem flatMap_range_map_range {α : Type} (f : Nat → α) (m n : Nat) :
    ((List.range m).flatMap fun p => (List.range n).map fun c => f (p * n + c)) = (List.range (m * n)).map f := by
  induction m with
  | zero => simp
  | succ m ih => rw [List.range_succ, List.flatMap_append, ih, Nat.succ_mul, List.range_add, List.map_append]; simp

theorem pageMajor_eq_fbStream (s : State) : pageMajor s = s.fbStream := by
  have hcell : ∀ p c : Nat, s.fbByte p c = s.fbCell (p * 248 + c) := fun p c => by
    rw [State.fbByte, fbIndex]
    exact congrArg s.fbCell (by omega)
  rw [pageMajor, State.fbStream, FB_BYTES]
  simp only [hcell]
  exact flatMap_range_map_range s.fbCell 16 248

section
variable {s : State} (hq : Quiet s)
include hq

theorem exec_update_of_quiet (hidle : s.pstate = .idle) :
    exec (.update []) s =
      .next ((s.progress .busyWait (updateEvents s.cfg (pageMajor s)) 0).running true
        [.poll, .delay s.cfg.tSettleMs, .finishIdle]).advance := by
  have hstart : ({ s with pstate := .transmitting } : State).accept (updateOps s.cfg s.fbStream) =
      (s.progress .transmitting [] 0).running true (updateOps s.cfg s.fbStream) := rfl
  rw [exec, execUpdate, if_pos argsOk_update, if_pos hidle, hstart, updateOps_eq,
    State.advance_progress_wires hq _ _ _ _ _ (updateCommands_not_hostOnly _ _), State.advance_progress_setPState hq,
    State.advance_progress_wires hq _ _ _ _ _ (by simp [refreshCommands, hostOnly]), State.advance_progress_setPState hq,
    List.nil_append, updateEvents_eq, pageMajor_eq_fbStream]

/-- UPDATE finishes when its wait has returned. -/
theorem update_finishes (hidle : s.pstate = .idle) {k : Nat} (h : BusyTimes s 0 k) :
    ∃ t, exec (.update []) s = .next t ∧
      steps k t = .next (done (s.progress .idle (updateEvents s.cfg (pageMajor s) ++ busyWaitEvents s.cfg k) (k + 1)) .ok) := by
  refine ⟨_, exec_update_of_quiet hq hidle, ?_⟩
  rw [steps_progress_wait hq _ _ _ _ _ h, State.advance_progress_finishIdle hq, Nat.zero_add]

end

/-- Settles O41: with no busy sample UPDATE finishes within exec. -/
theorem updateCompletes : Obligations.UpdateCompletes := by
  intro s hq hidle hnot
  obtain ⟨t, ht, hdone⟩ := update_finishes hq hidle (busyTimes_none hnot)
  rw [ht, ← List.drop_one]
  rw [State.progress, ← hidle] at hdone
  exact hdone

/-- Settles O42: the events of UPDATE, read command by command. -/
theorem updateByteView : Obligations.UpdateByteView := by
  intro s k r hq hidle h
  obtain ⟨t, ht, hsteps⟩ := update_finishes hq hidle h
  refine ⟨t, _, _, ht, hsteps, rfl, rfl, ?view, ?length⟩
  case view =>
    rw [(shows_updateEvents (pageMajor s)).append (shows_busyWaitEvents k), updateCommands, refreshCommands]
    cases s.cfg.updateSetCounters <;> simp
  case length =>
    rw [pageMajor_eq_fbStream, State.fbStream, List.length_map, List.length_range, FB_BYTES]

/-- Settles O43: UPDATE comes to its wait within exec, and no step ends it. -/
theorem updateHangsInBusyWait : Obligations.UpdateHangsInBusyWait := by
  intro s n hq hidle hbusy
  refine ⟨_, _, exec_update_of_quiet hq hidle, steps_progress_hang hq _ _ _ _ _ (by simpa using hbusy), ?_, rfl⟩
  rw [State.running, State.progress]

end Sys2Proof.Machine
